-- ==== Sys2Proof/Word.lean ====
section
/-! DEFINITION. The two word types of the block and ceiling division (spec/00_scope.md R9, R11). -/

namespace Sys2Proof

/-- A byte: a scanline byte, a presence byte, a token, an output byte (R9, R10). -/
abbrev Byte := BitVec 8

/-- A word of the command port and of the read port (30_encoding.md R110, 10_state.md R48). -/
abbrev Word := BitVec 32

/-- `ceil_div(a, b)` of R11, for `b ≥ 1`. -/
def ceilDiv (a b : Nat) : Nat := (a + b - 1) / b

end Sys2Proof
end

