-- ==== Sys2Proof/Config.lean ====
section
/-! DEFINITION. What is fixed when the block is instantiated (spec/00_scope.md R8): the fixed parameters
and the OPEN ones. An OPEN parameter is an opaque constant with no body: nothing is provable of its value. -/

namespace Sys2Proof

/-- The GraphicsMode of a page (10_state.md R35; 30_encoding.md R120): the codes 0, 1, 2 in this order. -/
inductive GraphicsMode where
  | directMaskAnd
  | directMaskOr
  | sparseDelta
deriving DecidableEq, Repr

namespace Config

/-- MAX_BPL_DELTA, 512 bytes a scanline in SparseDelta mode (R8). -/
def maxBplDelta : Nat := 512

/-- MAX_BPL_DIRECT, 65 535 bytes a scanline in the direct modes (R8). -/
def maxBplDirect : Nat := 65535

/-- CB_CAP, the chunk buffer's capacity of 65 535 bytes (R8; 43_chunk_framer.md R271). -/
def cbCap : Nat := 65535

/-- OPEN `SETUP_BYTES(cfg, width, height, mode)` (10_state.md R52; 92_eei_decisions.md D18). -/
opaque setupBytes : Word → Word → Word → GraphicsMode → List Byte

/-- OPEN `TRAILER_BYTES(cfg, mode)` (R52, D18). -/
opaque trailerBytes : Word → GraphicsMode → List Byte

/-- OPEN `DEVICE_RESET_BYTES` (R52, D18). -/
opaque deviceResetBytes : List Byte

/-- OPEN `FRAME_HEADER_BYTES(offset, width, bpl)`; the mode tag is inside it (R52, R277, D18, D34). -/
opaque frameHeaderBytes : Word → Word → Word → List Byte

/-- OPEN `FRAME_TERMINATOR_BYTES` (R52, R280, D18). -/
opaque frameTerminatorBytes : List Byte

/-- OPEN `SXDE_BASE`, the block's bus address; no rule reads it (20_memory.md R81, D1). -/
opaque sxdeBase : Nat

/-- OPEN `RUN_ALPHABET` (41_run_alphabet.md R202, D19): the 39 token bytes are the images of 0 to 38 under an
unknown permutation of the bytes, which says that they are pairwise distinct and nothing else (log entry 12). -/
opaque runAlphabet : Equiv.Perm Byte

end Config
end Sys2Proof
end

