-- ==== Sys2Proof/Syntax.lean ====
section
/-! DEFINITION. The operations of the block: one constructor per row of spec/opcode_table.json, and the
textual command lines of spec/30_encoding.md R128. -/

namespace Sys2Proof

/-- The four commands of the CMD port and the three side-band events (30_encoding.md R110, R127).
A command keeps its reserved head-word bits, because a command with one set is still that command
(R117, R119), and an ENCODE_LINE keeps its pad bytes, whose values are ignored (R124). -/
inductive Instr where
  /-- BEGIN_PAGE (R113): head[23:2], head[1:0], word 1, word 2, word 3. -/
  | beginPage (reserved : BitVec 22) (mode : BitVec 2) (width height cfg : Word)
  /-- ENCODE_LINE (R114): head[23:16], word 1, the NBYTES scanline bytes, and the pad bytes after them.
  NBYTES, head[15:0], is the number of scanline bytes. -/
  | encodeLine (reserved : BitVec 8) (lineIndex : Word) (bytes pad : List Byte)
  /-- END_PAGE (R115): head[23:0]. -/
  | endPage (reserved : BitVec 24)
  /-- RLE_ENCODE (R116): head[23:8], head[7:0], word 1. -/
  | rleEncode (reserved : BitVec 16) (char : Byte) (count : Word)
  /-- The CANCEL event (40_page_session.md R170). -/
  | cancel
  /-- A REG read of an index (40_page_session.md R175). -/
  | read (index : Nat)
  /-- The RESET event (70_reset_and_hazards.md R340). -/
  | reset
deriving DecidableEq, Repr

/-- A line of the textual command syntax (R128), after its numbers have been read. -/
inductive AsmLine where
  | beginPage (mode : GraphicsMode) (width height : Int) (cfg : Word)
  | encodeLine (lineIndex : Word) (bytes : List Byte)
  | endPage
  | rleEncode (char : Byte) (count : Word)
  | cancel
  | reset
  | read (index : Nat)
deriving DecidableEq, Repr

end Sys2Proof
end

