-- ==== Sys2Proof/WellFormed.lean ====
section
/-! DEFINITION. Which terms of `Instr` stand for an operation of the block: the field widths of
spec/30_encoding.md R113 to R116 that the types do not already give. -/

namespace Sys2Proof

/-- How many pad bytes fill the last payload word of an `n`-byte scanline (30_encoding.md R124). -/
def padCount (n : Nat) : Nat := 4 * ceilDiv n 4 - n

/-- NBYTES is a 16-bit field (R114), and the payload is whole words (R124). -/
def Instr.wellFormed : Instr → Bool
  | .beginPage _ _ _ _ _ => true
  | .encodeLine _ _ bytes pad => decide (bytes.length < 2 ^ 16) && decide (pad.length = padCount bytes.length)
  | .endPage _ => true
  | .rleEncode _ _ _ => true
  | .cancel => true
  | .read _ => true
  | .reset => true

/-- The operation is a command of the CMD port; the others have no bit pattern there (R127). -/
def Instr.isCommand : Instr → Bool
  | .beginPage _ _ _ _ _ => true
  | .encodeLine _ _ _ _ => true
  | .endPage _ => true
  | .rleEncode _ _ _ => true
  | .cancel => false
  | .read _ => false
  | .reset => false

end Sys2Proof
end

