-- ==== Sys2Proof/Decode.lean ====
section
/-! DEFINITION. Command words to operations and back (spec/30_encoding.md): the decoder, total on any word
sequence (R126), the encoder, and the assembler of the textual lines (R128). -/

namespace Sys2Proof

/-- OPC, head[31:24] (R111). -/
def opcodeOf (head : Word) : BitVec 8 := head.extractLsb' 24 8

/-- NBYTES of an ENCODE_LINE head, head[15:0] (R114). -/
def nbytesOf (head : Word) : Nat := (head.extractLsb' 0 16).toNat

/-- The payload words of an ENCODE_LINE head: `ceil_div(NBYTES, 4)` (R114). -/
def payloadWords (head : Word) : Nat := ceilDiv (nbytesOf head) 4

/-- Command length in words, from the head word alone (R118). -/
def commandLength (head : Word) : Nat :=
  if opcodeOf head = 0x01#8 then 4
  else if opcodeOf head = 0x02#8 then 2 + payloadWords head
  else if opcodeOf head = 0x03#8 then 1
  else if opcodeOf head = 0x04#8 then 2
  else 1

/-- The four bytes of a payload word, the lowest-numbered one most significant (R124). -/
def unpackWord (w : Word) : List Byte :=
  [w.extractLsb' 24 8, w.extractLsb' 16 8, w.extractLsb' 8 8, w.extractLsb' 0 8]

/-- The bytes of a payload, in order (R124). -/
def unpackWords (ws : List Word) : List Byte := ws.flatMap unpackWord

/-- Payload words of a byte sequence of whole words (R124). -/
def packBytes : List Byte → List Word
  | b0 :: b1 :: b2 :: b3 :: rest => (b0 ++ b1 ++ b2 ++ b3) :: packBytes rest
  | _ => []

/-- What the front of a word sequence is. -/
inductive Decoded where
  /-- A command and the words after it. -/
  | command (i : Instr) (rest : List Word)
  /-- A head word whose OPC is none of 0x01 to 0x04: a one-word command, rejected as ILLEGAL_OPCODE (R117). -/
  | illegalOpcode (head : Word) (rest : List Word)
  /-- Some word of the command has not arrived (R118). -/
  | incomplete
deriving DecidableEq, Repr

/-- BEGIN_PAGE's operand words (R113). -/
def decodeBeginPage (head : Word) : List Word → Decoded
  | width :: height :: cfg :: rest =>
    .command (.beginPage (head.extractLsb' 2 22) (head.extractLsb' 0 2) width height cfg) rest
  | _ => .incomplete

/-- ENCODE_LINE's operand words (R114, R122, R124). -/
def decodeEncodeLine (head : Word) : List Word → Decoded
  | index :: ws =>
    if ws.length < payloadWords head then .incomplete
    else
      let payload := unpackWords (ws.take (payloadWords head))
      .command (.encodeLine (head.extractLsb' 16 8) index
        (payload.take (nbytesOf head)) (payload.drop (nbytesOf head))) (ws.drop (payloadWords head))
  | [] => .incomplete

/-- RLE_ENCODE's operand word (R116, R125). -/
def decodeRleEncode (head : Word) : List Word → Decoded
  | count :: rest => .command (.rleEncode (head.extractLsb' 8 16) (head.extractLsb' 0 8) count) rest
  | [] => .incomplete

/-- The first command of a word sequence (R112, R126). -/
def decode : List Word → Decoded
  | [] => .incomplete
  | head :: ws =>
    if opcodeOf head = 0x01#8 then decodeBeginPage head ws
    else if opcodeOf head = 0x02#8 then decodeEncodeLine head ws
    else if opcodeOf head = 0x03#8 then .command (.endPage (head.extractLsb' 0 24)) ws
    else if opcodeOf head = 0x04#8 then decodeRleEncode head ws
    else .illegalOpcode head ws

/-- The words of a command (R113 to R116); a side-band event has none (R127). -/
def encode : Instr → List Word
  | .beginPage reserved mode width height cfg => [0x01#8 ++ reserved ++ mode, width, height, cfg]
  | .encodeLine reserved lineIndex bytes pad =>
    (0x02#8 ++ reserved ++ BitVec.ofNat 16 bytes.length) :: lineIndex :: packBytes (bytes ++ pad)
  | .endPage reserved => [0x03#8 ++ reserved]
  | .rleEncode reserved char count => [0x04#8 ++ reserved ++ char, count]
  | .cancel => []
  | .read _ => []
  | .reset => []

/-- The words of an instruction given as one number, bit 0 the least significant bit of the first word: the
head word, then as many words as its length asks for, zero above `nbits`. -/
def tableWords (nbits w : Nat) : List Word :=
  let bits := w % 2 ^ nbits
  (List.range (commandLength (BitVec.ofNat 32 bits))).map fun k => BitVec.ofNat 32 (bits >>> (32 * k))

/-- The instruction the decoder reads from the bits `w` numbered as spec/opcode_table.json numbers them. -/
def decodeTableWord (nbits w : Nat) : Option Instr :=
  match decode (tableWords nbits w) with
  | .command i _ => some i
  | .illegalOpcode _ _ => none
  | .incomplete => none

/-- The code of a mode in BEGIN_PAGE's MODE field and in the MODE register (R120; 10_state.md R35). -/
def GraphicsMode.code : GraphicsMode → BitVec 2
  | .directMaskAnd => 0
  | .directMaskOr => 1
  | .sparseDelta => 2

/-- The operation a textual line stands for: exactly one command or one event (R128, R129). -/
def AsmLine.assemble : AsmLine → Instr
  | .beginPage mode width height cfg =>
    .beginPage 0 mode.code (BitVec.ofInt 32 width) (BitVec.ofInt 32 height) cfg
  | .encodeLine lineIndex bytes => .encodeLine 0 lineIndex bytes (List.replicate (padCount bytes.length) 0)
  | .endPage => .endPage 0
  | .rleEncode char count => .rleEncode 0 char count
  | .cancel => .cancel
  | .reset => .reset
  | .read index => .read index

/-- The name of a mode in a textual line (R128). -/
def GraphicsMode.text : GraphicsMode → String
  | .directMaskAnd => "DIRECT_AND"
  | .directMaskOr => "DIRECT_OR"
  | .sparseDelta => "SPARSE_DELTA"

/-- A hexadecimal digit. -/
def hexDigit (n : Nat) : String := String.ofList ((Nat.toDigits 16 n).map Char.toUpper)

/-- A byte as two hexadecimal digits. -/
def byteText (b : Byte) : String := hexDigit (b.toNat / 16) ++ hexDigit (b.toNat % 16)

/-- The textual line itself (R128). -/
def AsmLine.text : AsmLine → String
  | .beginPage mode width height cfg =>
    "BEGIN_PAGE " ++ mode.text ++ ", " ++ toString width ++ ", " ++ toString height ++ ", " ++ toString cfg.toNat
  | .encodeLine lineIndex bytes =>
    "ENCODE_LINE " ++ toString lineIndex.toNat ++ ", [" ++ String.intercalate " " (bytes.map byteText) ++ "]"
  | .endPage => "END_PAGE"
  | .rleEncode char count => "RLE_ENCODE 0x" ++ byteText char ++ ", " ++ toString count.toNat
  | .cancel => "CANCEL"
  | .reset => "RESET"
  | .read index => "READ " ++ toString index

end Sys2Proof
end

