-- ==== Sys2Proof/Machine/State.lean ====
section
/-! DEFINITION. The state of the block as plain data (spec/10_state.md) and its value after reset (R55), the
inputs that reach it (spec/20_memory.md R82), and the reasons a step of the model can stop. -/

namespace Sys2Proof.Machine

/-- STATE (10_state.md R34): 0 Idle, 1 Active, 2 Canceling; 3 is never held. -/
inductive Session where
  | idle
  | active
  | canceling
deriving DecidableEq, Repr

/-- BEGIN_RESULT (10_state.md R44): 0 OK, 1 GEOMETRY_ERROR, 2 CANCELED; 3 is never held. -/
inductive BeginResult where
  | ok
  | geometryError
  | canceled
deriving DecidableEq, Repr

/-- FAULT_CODE (60_exceptions.md R301): the codes 0 to 8 in this order; 9 to 15 are never recorded. -/
inductive FaultCode where
  | none
  | illegalOpcode
  | reservedBits
  | illegalMode
  | stateViolation
  | lineLengthMismatch
  | lineIndexMismatch
  | lineOverrun
  | capacity
deriving DecidableEq, Repr

/-- An item of the output sink (10_state.md R52). -/
inductive Item where
  | byte (b : Byte)
  | setup (cfg width height : Word) (mode : GraphicsMode)
  | frameHeader (offset width bpl : Word)
  | frameTerminator
  | trailer (cfg : Word) (mode : GraphicsMode)
  | deviceReset
deriving DecidableEq, Repr

/-- What reaches the block from outside, in arrival order (20_memory.md R82, R90 to R92): a word on CMD, a
CANCEL event, a RESET event, or a REG read of an index. -/
inductive Input where
  | word (w : Word)
  | cancel
  | reset
  | read (index : Nat)
deriving DecidableEq, Repr

/-- The three internal byte memories (20_memory.md R80). -/
inductive MemId where
  | line
  | ref
  | cb
deriving DecidableEq, Repr

/-- A byte memory: the bytes something has written, addresses strictly rising. An unlisted address has no
value (10_state.md R56; log entry 6). -/
abbrev Memory := List Host.Cell

/-- The SparseDeltaCodec's staging (10_state.md R51): D, LEAF[t][s], MID[t] and TOP. -/
structure Staging where
  delta : List Byte
  leaf : List (List Byte)
  mid : List Byte
  top : Byte
deriving DecidableEq, Repr

/-- An answer given on the REG port: the index asked for and the word returned (40_page_session.md R175). -/
structure Reply where
  index : Nat
  value : Word
deriving DecidableEq, Repr

/-- Why a step of the MODEL stops. The block's own faults (R301) are recorded in the state and stop nothing. -/
inductive Fault where
  /-- Raised by `State.loadMem`, so by ENCODE_LINE and END_PAGE, on a byte no rule has written. Safe: the spec
  leaves the byte unspecified, lets a model fault on it, and no run reaches it (10_state.md R56; log entry 6). -/
  | unwrittenByte (mem : MemId) (addr : Nat)
  /-- Raised by `State.loadMem` and `State.storeMem`, so by ENCODE_LINE, on an address outside the memory. Safe:
  the spec lets a model fault on it, and no rule forms it (20_memory.md R84; log entry 7). -/
  | badAddress (mem : MemId) (addr : Nat)
deriving DecidableEq, Repr

/-- Why the model gives an instruction no meaning. -/
inductive Refusal where
  /-- Raised by an arm of `exec` for an instruction that has no meaning yet. Safe. No arm raises it now. -/
  | notModelled (mnemonic : String)
deriving DecidableEq, Repr

/-- The whole state of the block. The first fifteen fields are the registers of 10_state.md R31. -/
structure State where
  /-- STATE (R34). -/
  session : Session
  /-- MODE (R35). -/
  mode : GraphicsMode
  /-- WIDTH, signed (R36). -/
  width : Word
  /-- HEIGHT, signed (R36). -/
  height : Word
  /-- BPL (R37). -/
  bpl : Word
  /-- CFG (R38). -/
  cfg : Word
  /-- LINE_CNT (R39). -/
  lineCnt : Word
  /-- CUR (R40). -/
  cur : BitVec 16
  /-- MARK (R41). -/
  mark : Word
  /-- CANCEL_REQ (R42). -/
  cancelReq : Bool
  /-- CANCEL_LATCH (R43). -/
  cancelLatch : Bool
  /-- BEGIN_RESULT (R44). -/
  beginResult : BeginResult
  /-- FAULT (R45). -/
  fault : Bool
  /-- FAULT_CODE (R45). -/
  faultCode : FaultCode
  /-- PAGE_IDX (R46). -/
  pageIdx : Word
  /-- LINE (R50). -/
  line : Memory
  /-- REF (R50). -/
  ref : Memory
  /-- CB (R50). -/
  cb : Memory
  /-- The codec's staging (R51). -/
  staging : Staging
  /-- OUT, oldest item first (R52). -/
  out : List Item
  /-- `cmd_pos` (R32). -/
  cmdPos : Nat
  /-- The words of a partially received command, first word first (R55, 30_encoding.md R118). -/
  pending : List Word
  /-- The inputs that have not been taken yet, next one first: the model's own field (log entry 2). -/
  input : List Input
  /-- The answers given on REG, oldest first: the model's own field (log entry 10). -/
  replies : List Reply
deriving DecidableEq, Repr

/-- The staging after reset, which the spec leaves unspecified and no rule reads (R55; log entry 9). -/
def Staging.reset : Staging :=
  { delta := [], leaf := List.replicate 8 (List.replicate 8 0), mid := List.replicate 8 0, top := 0 }

/-- The block at power-on: every register 0, STATE Idle, OUT empty (R55, 70_reset_and_hazards.md R340). -/
def State.reset : State :=
  { session := .idle, mode := .directMaskAnd, width := 0, height := 0, bpl := 0, cfg := 0,
    lineCnt := 0, cur := 0, mark := 0, cancelReq := false, cancelLatch := false, beginResult := .ok,
    fault := false, faultCode := .none, pageIdx := 0, line := [], ref := [], cb := [],
    staging := Staging.reset, out := [], cmdPos := 0, pending := [], input := [], replies := [] }

end Sys2Proof.Machine
end

