-- ==== Sys2Proof/Machine/Ops.lean ====
section
/-! DEFINITION. The shared operations: the byte memories (spec/20_memory.md R80, R84), the output sink
(10_state.md R52), recording a fault (60_exceptions.md R305), and receiving words, commands and events
(20_memory.md R90 to R92; 30_encoding.md R118). -/

namespace Sys2Proof.Machine

/-! ## Byte memories -/

/-- Addresses strictly rising, the first at least `lo`. -/
def Memory.wfFrom : Nat → Memory → Bool
  | _, [] => true
  | lo, (k, _) :: m => decide (lo ≤ k) && Memory.wfFrom (k + 1) m

/-- The canonical form: addresses strictly rising. No listed byte can equal what an unlisted address reads as,
which is no value. -/
def Memory.wf (m : Memory) : Bool := Memory.wfFrom 0 m

/-- `MemRead` of one byte; `none` where nothing has been written (R84; 10_state.md R56). -/
def Memory.read : Memory → Nat → Option Byte
  | [], _ => none
  | (k, b) :: m, a => if k = a then some b else Memory.read m a

/-- The cells of a byte sequence laid out from an address. -/
def Memory.cells : Nat → List Byte → Memory
  | _, [] => []
  | a, b :: bs => (a, b) :: Memory.cells (a + 1) bs

/-- `MemWrite(M, a + j, 1, bs[j])` for every `j` (R84). -/
def Memory.store (m : Memory) (a : Nat) (bs : List Byte) : Memory :=
  m.filter (fun c => decide (c.1 < a)) ++ Memory.cells a bs
    ++ m.filter (fun c => decide (a + bs.length ≤ c.1))

/-- `MemRead(M, a + j, 1)` for `j < n`, byte by byte; an address with no value is the error. -/
def Memory.loadFrom (m : Memory) : Nat → Nat → Except Nat (List Byte)
  | _, 0 => .ok []
  | a, n + 1 =>
    match m.read a with
    | none => .error a
    | some b =>
      match Memory.loadFrom m (a + 1) n with
      | .ok bs => .ok (b :: bs)
      | .error e => .error e

/-- The bytes of the first `n` cells where their addresses are `a`, `a + 1`, …. -/
def Memory.scan : Memory → Nat → Nat → Option (List Byte)
  | _, _, 0 => some []
  | [], _, _ + 1 => none
  | (k, b) :: m, a, n + 1 => if k = a then (Memory.scan m (a + 1) n).map (b :: ·) else none

/-- `MemRead(M, j, 1)` for `j < n`: `loadFrom 0 n`, which the scan answers at once where it can. -/
def Memory.load (m : Memory) (n : Nat) : Except Nat (List Byte) :=
  match m.scan 0 n with
  | some bs => .ok bs
  | none => m.loadFrom 0 n

/-- The sizes in bytes (R80). -/
def MemId.size : MemId → Nat
  | .line => Config.maxBplDirect
  | .ref => Config.maxBplDelta
  | .cb => Config.cbCap

/-- A memory of the block. -/
def State.memory (s : State) : MemId → Memory
  | .line => s.line
  | .ref => s.ref
  | .cb => s.cb

/-- Replace a memory of the block. -/
def State.setMemory (s : State) (id : MemId) (m : Memory) : State :=
  match id with
  | .line => { s with line := m }
  | .ref => { s with ref := m }
  | .cb => { s with cb := m }

/-- The bytes 0 to `n - 1` of a memory; an address outside it or with no value stops the model (R84, R56). -/
def State.loadMem (s : State) (id : MemId) (n : Nat) : Except Fault (List Byte) :=
  if id.size < n then .error (.badAddress id id.size)
  else
    match (s.memory id).load n with
    | .ok bs => .ok bs
    | .error a => .error (.unwrittenByte id a)

/-- Write a byte sequence from address 0 of a memory; an address outside it stops the model (R84). -/
def State.storeMem (s : State) (id : MemId) (bs : List Byte) : Except Fault State :=
  if id.size < bs.length then .error (.badAddress id id.size)
  else .ok (s.setMemory id ((s.memory id).store 0 bs))

/-! ## The output sink -/

/-- `emit` of a sequence of items (00_scope.md R13; 20_memory.md R97). -/
def State.emit (s : State) (items : List Item) : State := { s with out := s.out ++ items }

/-- `emitBytes` (00_scope.md R13). -/
def State.emitBytes (s : State) (bs : List Byte) : State := s.emit (bs.map .byte)

/-- The bytes an item stands for on the wire (10_state.md R52). -/
def Item.wire : Item → List Byte
  | .byte b => [b]
  | .setup cfg width height mode => Config.setupBytes cfg width height mode
  | .frameHeader offset width bpl => Config.frameHeaderBytes offset width bpl
  | .frameTerminator => Config.frameTerminatorBytes
  | .trailer cfg mode => Config.trailerBytes cfg mode
  | .deviceReset => Config.deviceResetBytes

/-- The wire image of OUT: its items' bytes in order (10_state.md R52). -/
def wireImage (items : List Item) : List Byte := items.flatMap Item.wire

/-! ## Faults -/

/-- The effect of a fault (60_exceptions.md R305): FAULT is set, FAULT_CODE takes the code if it held none,
nothing else changes, and the block goes on with the next command. There is no entry, no saved state and no
return (R300, R306 to R308); RESET alone clears the record. -/
def State.recordFault (s : State) (code : FaultCode) : State :=
  { s with fault := true, faultCode := if s.faultCode = .none then code else s.faultCode }

/-- How far a step of a command got: done, ended by the CAPACITY fault with what it had appended kept (R305), or
stopped by the model. -/
inductive Progress where
  | done (s : State)
  | capacity (s : State)
  | stopped (f : Fault)
deriving DecidableEq, Repr

/-- Go on with the next step of the command, if this one is done. -/
def Progress.andThen (p : Progress) (next : State → Progress) : Progress :=
  match p with
  | .done s => next s
  | .capacity s => .capacity s
  | .stopped f => .stopped f

/-- The outcome of a command that ended so. -/
def Progress.outcome : Progress → Host.Outcome State Fault Refusal
  | .done s => .next s
  | .capacity s => .next (s.recordFault .capacity)
  | .stopped f => .fault f

/-! ## Receiving commands and events -/

/-- How many more words the command at the front needs (30_encoding.md R118). -/
def wordsNeeded : List Word → List Input → Nat
  | head :: got, _ => commandLength head - (got.length + 1)
  | [], .word head :: _ => commandLength head
  | [], _ => 0

/-- At most `n` words from the front of the inputs, not past an event, and the inputs after them. -/
def takeWords : Nat → List Input → List Word × List Input
  | n + 1, .word w :: rest => (w :: (takeWords n rest).1, (takeWords n rest).2)
  | _, inputs => ([], inputs)

/-- What the next step is to do, and the state it does it in. -/
inductive Fetched where
  /-- Run an operation. -/
  | run (i : Instr) (s : State)
  /-- Reject an illegal head word. -/
  | illegal (s : State)
  /-- Wait: no whole command and no event is there. -/
  | hold (s : State)
deriving DecidableEq, Repr

/-- The event at the front of the inputs, if there is one; the words before it stay received (R91, R92, R340). -/
def State.fetchEvent (s : State) : Fetched :=
  match s.input with
  | .cancel :: rest => .run .cancel { s with input := rest }
  | .reset :: rest => .run .reset { s with input := rest }
  | .read index :: rest => .run (.read index) { s with input := rest }
  | .word _ :: _ => .hold s
  | [] => .hold s

/-- Move `cmd_pos` past the words of a command (10_state.md R32) and keep the words after it. -/
def State.consume (s : State) (got left : List Word) : State :=
  { s with pending := left, cmdPos := s.cmdPos + (got.length - left.length) }

/-- Take what the next step is to do: the command whose words have all arrived, else the event that comes first,
else wait for words (30_encoding.md R118; 20_memory.md R90 to R92; 60_exceptions.md R318). -/
def State.fetch (s : State) : Fetched :=
  let taken := takeWords (wordsNeeded s.pending s.input) s.input
  let got := s.pending ++ taken.1
  let s' := { s with pending := got, input := taken.2 }
  match decode got with
  | .command i left => .run i (s'.consume got left)
  | .illegalOpcode _ left => .illegal (s'.consume got left)
  | .incomplete => s'.fetchEvent

end Sys2Proof.Machine
end

