-- ==== Sys2Proof/Machine/Operands.lean ====
section
/-! DEFINITION. What the operands of a command stand for (spec/30_encoding.md R120 to R125) and the quantities
derived from them (10_state.md R37; 40_page_session.md R151). -/

namespace Sys2Proof.Machine

/-- The MODE field; 3 is illegal (30_encoding.md R120). -/
def modeOf (field : BitVec 2) : Option GraphicsMode :=
  if field = 0 then some .directMaskAnd
  else if field = 1 then some .directMaskOr
  else if field = 2 then some .sparseDelta
  else none

/-- WIDTH and HEIGHT are read as signed (30_encoding.md R121). -/
def signedOf (w : Word) : Int := w.toInt

/-- Bytes per scanline of a width of at least 1 pixel, `ceil_div(width, 8)` (10_state.md R37). -/
def bytesPerLine (width : Word) : Nat := ceilDiv width.toNat 8

/-- The page cannot be started: a size that is not positive, or a line too long for ENCODE_LINE or for one pass
of the codec (40_page_session.md R151). -/
def geometryError (mode : GraphicsMode) (width height : Word) : Bool :=
  decide (signedOf width ≤ 0) || decide (signedOf height ≤ 0)
    || decide (Config.maxBplDirect < bytesPerLine width)
    || (decide (mode = .sparseDelta) && decide (Config.maxBplDelta < bytesPerLine width))

/-- LINE_INDEX and COUNT are read as unsigned (30_encoding.md R122, R125). -/
def unsignedOf (w : Word) : Nat := w.toNat

end Sys2Proof.Machine
end

