-- ==== Sys2Proof/Machine/Flags.lean ====
section
/-! DEFINITION. The codes of the named registers, the STATUS word (spec/10_state.md R47) and the read port (R48). -/

namespace Sys2Proof.Machine

/-- The code of STATE (R34). -/
def Session.code : Session → BitVec 2
  | .idle => 0
  | .active => 1
  | .canceling => 2

/-- The code of BEGIN_RESULT (R44). -/
def BeginResult.code : BeginResult → BitVec 2
  | .ok => 0
  | .geometryError => 1
  | .canceled => 2

/-- The code of FAULT_CODE (60_exceptions.md R301). -/
def FaultCode.code : FaultCode → BitVec 4
  | .none => 0
  | .illegalOpcode => 1
  | .reservedBits => 2
  | .illegalMode => 3
  | .stateViolation => 4
  | .lineLengthMismatch => 5
  | .lineIndexMismatch => 6
  | .lineOverrun => 7
  | .capacity => 8

/-- The STATUS word, its most significant field first (R47). -/
def State.statusWord (s : State) : Word :=
  (0#19) ++ s.faultCode.code ++ BitVec.ofBool s.fault ++ s.beginResult.code
    ++ BitVec.ofBool s.cancelLatch ++ BitVec.ofBool s.cancelReq ++ s.mode.code ++ s.session.code

/-- The value of a read-port index (R48). -/
def State.readPort (s : State) : Nat → Word
  | 0 => s.statusWord
  | 1 => s.lineCnt
  | 2 => s.cur.setWidth 32
  | 3 => s.mark
  | 4 => s.pageIdx
  | 5 => s.bpl
  | 6 => s.width
  | 7 => s.height
  | _ => 0

end Sys2Proof.Machine
end

