-- ==== Sys2Proof/Machine/RunAlphabet.lean ====
section
/-! DEFINITION. The RunAlphabetCodec and its command RLE_ENCODE (spec/41_run_alphabet.md). -/

namespace Sys2Proof.Machine

/-- The token for 400 repeats (R202). -/
def tokenT400 : Byte := Config.runAlphabet 0#8

/-- `T20[u]`, the token for `20 u` repeats, `u` of 1 to 19 (R202). -/
def tokenT20 (u : Nat) : Byte := Config.runAlphabet (BitVec.ofNat 8 u)

/-- `T1[r]`, the token for `r` repeats, `r` of 1 to 19 (R202). -/
def tokenT1 (r : Nat) : Byte := Config.runAlphabet (BitVec.ofNat 8 (19 + r))

/-- Step 2: one token for the multiples of 20 left, if any (R201). -/
def twenties (r : Nat) : List Byte := if 20 ≤ r then [tokenT20 (r / 20)] else []

/-- Step 3: one token for what is left, if anything is (R201). -/
def ones (r : Nat) : List Byte := if 0 < r then [tokenT1 r] else []

/-- Steps 1 to 3 for a count of at least 2: the 400s, one at a time, then the 20s, then the 1s (R201, R203). -/
def runTokens (n : Nat) : List Byte :=
  List.replicate (n / 400) tokenT400 ++ twenties (n % 400) ++ ones (n % 400 % 20)

/-- The bytes of a character repeated `n` times: tokens only from 2 repeats up, the literal always last (R200, R201). -/
def runBytes (c : Byte) (n : Nat) : List Byte := (if 2 ≤ n then runTokens n else []) ++ [c]

/-- RLE_ENCODE (R200, R205). -/
def execRleEncode (reserved : BitVec 16) (char : Byte) (count : Word) (s : State) :
    Host.Outcome State Fault Refusal :=
  if reserved ≠ 0 then .next (s.recordFault .reservedBits)
  else .next (s.emitBytes (runBytes char (unsignedOf count)))

end Sys2Proof.Machine
end

