-- ==== Sys2Proof/Machine/Framer.lean ====
section
/-! DEFINITION. The ChunkFramer (spec/43_chunk_framer.md): pre-check, append, flush and the frame layout. -/

namespace Sys2Proof.Machine

/-- The worst-case growth of one line, `W(n)` (R270). -/
def worstCase (n : Nat) : Nat := n + 3 * ceilDiv n 8

/-- The remaining capacity of the chunk buffer (R271). -/
def State.room (s : State) : Nat := Config.cbCap - s.cur.toNat

/-- The items of a frame: header, the length's high and low byte, payload, terminator (R275; 20_memory.md R83). -/
def frameItems (offset width bpl : Word) (length : BitVec 16) (payload : List Byte) : List Item :=
  .frameHeader offset width bpl :: .byte (length.extractLsb' 8 8) :: .byte (length.extractLsb' 0 8)
    :: (payload.map .byte ++ [.frameTerminator])

/-- `Flush(k)` (R276, R278): nothing on an empty buffer; else the buffer as one frame, then an empty buffer whose
content begins at line `k`. -/
def State.flush (s : State) (k : Word) : Progress :=
  if s.cur = 0 then .done s
  else
    match s.loadMem .cb s.cur.toNat with
    | .error f => .stopped f
    | .ok payload =>
      .done { s.emit (frameItems s.mark s.width s.bpl s.cur payload) with cur := 0, mark := k }

/-- `PreCheck(n, k)` (R272): flush first if the worst case exceeds the room left. -/
def State.preCheck (s : State) (n : Nat) (k : Word) : Progress :=
  if s.room < worstCase n then s.flush k else .done s

/-- `Append(b)` (R274). -/
def State.append (s : State) (b : Byte) : Progress :=
  if s.cur.toNat = Config.cbCap then .capacity s
  else .done { s with cb := s.cb.store s.cur.toNat [b], cur := s.cur + 1 }

/-- `Append` of each byte in order, ended by the first that finds the buffer full: the bytes that fit are stored at
once (R241, R274; `Obligations.AppendBytesIsTheLoop` says that this is the loop). -/
def State.appendBytes (s : State) (bs : List Byte) : Progress :=
  let fit := bs.take s.room
  let s' := { s with cb := s.cb.store s.cur.toNat fit, cur := s.cur + BitVec.ofNat 16 fit.length }
  if bs.length ≤ s.room then .done s' else .capacity s'

end Sys2Proof.Machine
end

