-- ==== Sys2Proof/Machine/SparseDelta.lean ====
section
/-! DEFINITION. The SparseDeltaCodec (spec/42_sparse_delta.md): the delta, the presence bytes, the walk and the line
procedure. -/

namespace Sys2Proof.Machine

/-- `D[i] = LINE[i] xor REF[i]` (R231). -/
def deltaOf (line ref : List Byte) : List Byte := List.zipWith (· ^^^ ·) line ref

/-- The presence byte with the mask `0x80 >> j` for every present child `j` of 0 to 7 (R233, R234, R236). -/
def presence (present : Nat → Bool) : Byte :=
  (List.range 8).foldl (fun acc j => if present j then acc ||| (0x80#8 >>> j) else acc) 0

/-- `D[64t + 8s + j]`; a position past the end holds no delta byte and counts as 0 (R232, R235). -/
def slotByte (delta : List Byte) (t s j : Nat) : Byte := delta.getD (64 * t + 8 * s + j) 0

/-- `LEAF[t][s]` (R233). -/
def leafByte (delta : List Byte) (t s : Nat) : Byte := presence fun j => slotByte delta t s j != 0

/-- The staging of a line's delta, built afresh (R233 to R236). -/
def Staging.ofDelta (delta : List Byte) : Staging :=
  let leaf := (List.range 8).map fun t => (List.range 8).map fun s => leafByte delta t s
  let mid := leaf.map fun row => presence fun s => row.getD s 0 != 0
  { delta, leaf, mid, top := presence fun t => mid.getD t 0 != 0 }

/-- A byte is appended only if it is non-zero (R238). -/
def nonZero (b : Byte) : List Byte := if b = 0 then [] else [b]

/-- The walk of one sub-group: the leaf byte, then its delta bytes (R238). -/
def Staging.walkLeaf (g : Staging) (t s : Nat) : List Byte :=
  nonZero ((g.leaf.getD t []).getD s 0)
    ++ (List.range 8).flatMap fun j => nonZero (slotByte g.delta t s j)

/-- The walk of one top group: the mid byte, then its sub-groups (R238). -/
def Staging.walkMid (g : Staging) (t : Nat) : List Byte :=
  nonZero (g.mid.getD t 0) ++ (List.range 8).flatMap fun s => g.walkLeaf t s

/-- The bytes a line appends: the top byte always (R237), and the walk if it is non-zero (R238). -/
def Staging.walk (g : Staging) : List Byte :=
  g.top :: if g.top = 0 then [] else (List.range 8).flatMap fun t => g.walkMid t

/-- The part of `SparseDeltaLine` after the pre-check: build the staging, append the walk, copy LINE into REF
(R230, R242). -/
def State.encodeDelta (s : State) (n : Nat) : Progress :=
  match s.loadMem .line n with
  | .error f => .stopped f
  | .ok line =>
    match s.loadMem .ref n with
    | .error f => .stopped f
    | .ok ref =>
      let g := Staging.ofDelta (deltaOf line ref)
      ({ s with staging := g }.appendBytes g.walk).andThen fun s' =>
        match s'.storeMem .ref line with
        | .ok s'' => .done s''
        | .error f => .stopped f

/-- `SparseDeltaLine(k)` (R230). -/
def State.sparseDeltaLine (s : State) (k : Word) : Progress :=
  (s.preCheck s.bpl.toNat k).andThen fun s' => s'.encodeDelta s'.bpl.toNat

end Sys2Proof.Machine
end

