-- ==== Sys2Proof/Machine/Session.lean ====
section
/-! DEFINITION. The page session commands BEGIN_PAGE, ENCODE_LINE and END_PAGE (spec/40_page_session.md). -/

namespace Sys2Proof.Machine

/-! ## BEGIN_PAGE -/

/-- A BEGIN_PAGE that starts no page writes BEGIN_RESULT and nothing else (R151). -/
def State.refusePage (s : State) (result : BeginResult) : State := { s with beginResult := result }

/-- The commit of BEGIN_PAGE (R152). -/
def State.openPage (s : State) (mode : GraphicsMode) (width height cfg : Word) : State :=
  { s with
    mode := mode, width := width, height := height, bpl := BitVec.ofNat 32 (bytesPerLine width), cfg := cfg,
    ref := s.ref.store 0 (List.replicate Config.maxBplDelta 0), cur := 0, mark := 0, lineCnt := 0,
    pageIdx := s.pageIdx + 1, beginResult := .ok, session := .active,
    out := s.out ++ [.setup cfg width height mode] }

/-- BEGIN_PAGE (R150). -/
def execBeginPage (reserved : BitVec 22) (mode : BitVec 2) (width height cfg : Word) (s : State) :
    Host.Outcome State Fault Refusal :=
  if reserved ≠ 0 then .next (s.recordFault .reservedBits)
  else
    match modeOf mode with
    | none => .next (s.recordFault .illegalMode)
    | some m =>
      if s.session ≠ .idle then .next (s.recordFault .stateViolation)
      else if s.cancelLatch then .next (s.refusePage .canceled)
      else if geometryError m width height then .next (s.refusePage .geometryError)
      else .next (s.openPage m width height cfg)

/-! ## ENCODE_LINE -/

/-- The line is canceled: STATE is Canceling, or CANCEL_REQ is set at this sampling point (R155, R157). -/
def State.canceling (s : State) : Bool := decide (s.session = .canceling) || s.cancelReq

/-- LINE_CNT has reached HEIGHT, which is signed (R155, R156; log entry 17). -/
def State.linesDone (s : State) : Bool := decide (signedOf s.height ≤ (s.lineCnt.toNat : Int))

/-- Direct-mode passthrough: the line's bytes, unchanged (R159). -/
def State.passThrough (s : State) (n : Nat) : Progress :=
  match s.loadMem .line n with
  | .error f => .stopped f
  | .ok bs => .done (s.emitBytes bs)

/-- The line is accepted: LINE_CNT goes up by one (R158). -/
def State.countLine (s : State) : State := { s with lineCnt := s.lineCnt + 1 }

/-- The dispatch of a line in LINE by MODE (R155, R158). -/
def State.dispatchLine (s : State) (k : Word) : Progress :=
  match s.mode with
  | .directMaskAnd => s.passThrough s.bpl.toNat
  | .directMaskOr => s.passThrough s.bpl.toNat
  | .sparseDelta => s.sparseDeltaLine k

/-- A line that is not canceled: into LINE, through the dispatch, and counted (R158). -/
def State.encodeScanline (s : State) (k : Word) (bytes : List Byte) : Progress :=
  match s.storeMem .line bytes with
  | .error f => .stopped f
  | .ok s' => (s'.dispatchLine k).andThen fun s'' => .done s''.countLine

/-- ENCODE_LINE (R155); the pad bytes are ignored (30_encoding.md R124). -/
def execEncodeLine (reserved : BitVec 8) (lineIndex : Word) (bytes _pad : List Byte) (s : State) :
    Host.Outcome State Fault Refusal :=
  if reserved ≠ 0 then .next (s.recordFault .reservedBits)
  else if s.session = .idle then .next (s.recordFault .stateViolation)
  else if bytes.length ≠ s.bpl.toNat then .next (s.recordFault .lineLengthMismatch)
  else if s.canceling then .next { s with session := .canceling }
  else if unsignedOf lineIndex ≠ s.lineCnt.toNat then .next (s.recordFault .lineIndexMismatch)
  else if s.linesDone then .next (s.recordFault .lineOverrun)
  else (s.encodeScanline lineIndex bytes).outcome

/-! ## END_PAGE -/

/-- END_PAGE samples CANCEL_REQ (R166). -/
def State.sampleCancel (s : State) : State := if s.cancelReq then { s with session := .canceling } else s

/-- END_PAGE's flush, in SparseDelta mode only, with line index 0 (R166; 43_chunk_framer.md R281). -/
def State.finalFlush (s : State) : Progress :=
  match s.mode with
  | .directMaskAnd => .done s
  | .directMaskOr => .done s
  | .sparseDelta => s.flush 0

/-- The end of END_PAGE: deviceReset and the latch on the canceling path, else the trailer; then Idle (R165, R166). -/
def State.closePage (s : State) : State :=
  if s.session = .canceling then
    { s with out := s.out ++ [.deviceReset], cancelLatch := true, cancelReq := false, session := .idle }
  else
    { s with out := s.out ++ [.trailer s.cfg s.mode], cancelReq := false, session := .idle }

/-- END_PAGE (R165). -/
def execEndPage (reserved : BitVec 24) (s : State) : Host.Outcome State Fault Refusal :=
  if reserved ≠ 0 then .next (s.recordFault .reservedBits)
  else if s.session = .idle then .next (s.recordFault .stateViolation)
  else (s.sampleCancel.finalFlush.andThen fun s' => .done s'.closePage).outcome

end Sys2Proof.Machine
end

