-- ==== Sys2Proof/Machine/SideBand.lean ====
section
/-! DEFINITION. The side-band events CANCEL and REG read (spec/40_page_session.md) and RESET
(spec/70_reset_and_hazards.md). -/

namespace Sys2Proof.Machine

/-- CANCEL (40_page_session.md R170): a request while a page is open, the latch in Idle. -/
def execCancel (s : State) : Host.Outcome State Fault Refusal :=
  match s.session with
  | .idle => .next { s with cancelLatch := true }
  | .active => .next { s with cancelReq := true }
  | .canceling => .next { s with cancelReq := true }

/-- Answer on the REG port. -/
def State.reply (s : State) (index : Nat) (value : Word) : State :=
  { s with replies := s.replies ++ [{ index, value }] }

/-- A REG read (40_page_session.md R175): the answer, and no side effect. -/
def execRead (index : Nat) (s : State) : Host.Outcome State Fault Refusal :=
  .next (s.reply index (s.readPort index))

/-- The effect of RESET (70_reset_and_hazards.md R340; 10_state.md R55): every register at its reset value, the
memories without a value, the partially received command discarded, so that `cmd_pos` is past its words (log entry
5). What was emitted, what was answered and what has not arrived are not the block's to change. -/
def State.hardReset (s : State) : State :=
  { State.reset with
    out := s.out, replies := s.replies, input := s.input, cmdPos := s.cmdPos + s.pending.length }

/-- RESET (70_reset_and_hazards.md R340). -/
def execReset (s : State) : Host.Outcome State Fault Refusal := .next s.hardReset

end Sys2Proof.Machine
end

