-- ==== Sys2Proof/Machine/Dispatch.lean ====
section
/-! DEFINITION. One arm per operation of spec/opcode_table.json. -/

namespace Sys2Proof.Machine

def exec (i : Instr) (s : State) : Host.Outcome State Fault Refusal :=
  match i with
  | .beginPage reserved mode width height cfg => Sys2Proof.Machine.execBeginPage reserved mode width height cfg s
  | .encodeLine reserved lineIndex bytes pad => Sys2Proof.Machine.execEncodeLine reserved lineIndex bytes pad s
  | .endPage reserved => Sys2Proof.Machine.execEndPage reserved s
  | .rleEncode reserved char count => Sys2Proof.Machine.execRleEncode reserved char count s
  | .cancel => Sys2Proof.Machine.execCancel s
  | .read index => Sys2Proof.Machine.execRead index s
  | .reset => Sys2Proof.Machine.execReset s

end Sys2Proof.Machine
end

