-- ==== Sys2Proof/Machine/Step.lean ====
section
/-! DEFINITION. One step: take the next command or event and run it (spec/20_memory.md R90 to R92). -/

namespace Sys2Proof.Machine

/-- One step. A head word that is no command is a one-word ILLEGAL_OPCODE fault (30_encoding.md R117); with nothing
to run the block waits, all state kept (30_encoding.md R118; 60_exceptions.md R318; log entry 3). -/
def step (s : State) : Host.Outcome State Fault Refusal :=
  match s.fetch with
  | .run i s' => exec i s'
  | .illegal s' => .next (s'.recordFault .illegalOpcode)
  | .hold s' => .next s'

/-- The state with an instruction's words next on CMD, at a command boundary (log entry 15). -/
def State.withFetchWord (s : State) (nbits w : Nat) : State :=
  { s with pending := [], input := (tableWords nbits w).map .word ++ s.input }

end Sys2Proof.Machine
end

