-- ==== Sys2Proof/Safety.lean ====
section
/-! DEFINITION. The terms claims are stated in: the invariants of a run (spec/10_state.md R54, R56), its end and its
observation (40_page_session.md R185), the fault conditions (60_exceptions.md R301, R303), the size and decoding laws
of a line (42_sparse_delta.md R240, R245, R247), the frames of OUT (43_chunk_framer.md R284), and what a command
leaves unchanged. -/

namespace Sys2Proof.Machine

/-! ## Invariants, runs and their observation -/

/-- What every state of a run satisfies: the invariants of R54, and that what may be read has been written (R56). -/
structure State.Inv (s : State) : Prop where
  /-- LINE is in canonical form. -/
  lineWf : s.line.wf = true
  /-- REF is in canonical form. -/
  refWf : s.ref.wf = true
  /-- CB is in canonical form. -/
  cbWf : s.cb.wf = true
  /-- LINE has no byte outside it (20_memory.md R80). -/
  lineBound : ∀ a, Config.maxBplDirect ≤ a → s.line.read a = none
  /-- REF has no byte outside it (20_memory.md R80). -/
  refBound : ∀ a, Config.maxBplDelta ≤ a → s.ref.read a = none
  /-- CB has no byte outside it (20_memory.md R80). -/
  cbBound : ∀ a, Config.cbCap ≤ a → s.cb.read a = none
  /-- An open page has a positive width (R54, item 2). -/
  openWidth : s.session ≠ .idle → 1 ≤ signedOf s.width
  /-- An open page has a positive height (R54, item 2). -/
  openHeight : s.session ≠ .idle → 1 ≤ signedOf s.height
  /-- BPL of an open page (R54, item 2). -/
  openBpl : s.session ≠ .idle → s.bpl.toNat = ceilDiv s.width.toNat 8
  /-- BPL of an open page fits LINE (R37). -/
  openBplDirect : s.session ≠ .idle → s.bpl.toNat ≤ 65535
  /-- BPL of an open SparseDelta page fits one pass (R54, item 2). -/
  openBplDelta : s.session ≠ .idle → s.mode = .sparseDelta → s.bpl.toNat ≤ 512
  /-- REF of an open page has been written (R56). -/
  refWritten : s.session ≠ .idle → ∀ a, a < 512 → (s.ref.read a).isSome
  /-- CB has been written below CUR (R56). -/
  cbWritten : ∀ a, a < s.cur.toNat → (s.cb.read a).isSome
  /-- The chunk buffer of an open direct page is empty (R54, item 4). -/
  directEmpty : s.session ≠ .idle → s.mode ≠ .sparseDelta → s.cur = 0
  /-- LINE_CNT of an open page (R54, item 5). -/
  countBound : s.session ≠ .idle → (s.lineCnt.toNat : Int) ≤ signedOf s.height
  /-- Idle holds no cancel request (R54, item 6). -/
  idleNoRequest : s.session = .idle → s.cancelReq = false
  /-- STATE became Canceling by a request that END_PAGE alone clears (R42, R157). -/
  cancelingRequested : s.session = .canceling → s.cancelReq = true
  /-- The fault record (R54, item 7). -/
  faultRecord : s.fault = false ↔ s.faultCode = .none
  /-- CAPACITY is unreachable (60_exceptions.md R301, 43_chunk_framer.md R283). -/
  noCapacity : s.faultCode ≠ .capacity
  /-- The partially received command is not whole (30_encoding.md R118). -/
  pendingPartial : decode s.pending = .incomplete

/-- The input is a REG read, which the end of a run does not wait for (40_page_session.md R185). -/
def Input.isRead : Input → Bool
  | .word _ => false
  | .cancel => false
  | .reset => false
  | .read _ => true

/-- A finished run: no word, CANCEL or RESET left to take and no command partially received; REG reads may be left
(40_page_session.md R185). -/
def State.finished (s : State) : Bool := s.input.all Input.isRead && s.pending.isEmpty

/-- A clean run: finished, FAULT = 0 and STATE = Idle (40_page_session.md R185). -/
def State.clean (s : State) : Bool := s.finished && !s.fault && decide (s.session = .idle)

/-- The observation of a run (00_scope.md R16; 10_state.md R33): OUT and the registers of R31. -/
structure Observation where
  out : List Item
  session : Session
  mode : GraphicsMode
  width : Word
  height : Word
  bpl : Word
  cfg : Word
  lineCnt : Word
  cur : BitVec 16
  mark : Word
  cancelReq : Bool
  cancelLatch : Bool
  beginResult : BeginResult
  fault : Bool
  faultCode : FaultCode
  pageIdx : Word
deriving DecidableEq, Repr

/-- The observation of a state. -/
def State.observe (s : State) : Observation :=
  { out := s.out, session := s.session, mode := s.mode, width := s.width, height := s.height, bpl := s.bpl,
    cfg := s.cfg, lineCnt := s.lineCnt, cur := s.cur, mark := s.mark, cancelReq := s.cancelReq,
    cancelLatch := s.cancelLatch, beginResult := s.beginResult, fault := s.fault, faultCode := s.faultCode,
    pageIdx := s.pageIdx }

/-- The next state of an outcome changed by `f`; a stop stays a stop. -/
def mapNext (f : State → State) : Host.Outcome State Fault Refusal → Host.Outcome State Fault Refusal
  | .next s => .next (f s)
  | .fault r => .fault r
  | .refused r => .refused r

/-- Two steps, if the first answers a next state. -/
def stepTwice (s : State) : Host.Outcome State Fault Refusal :=
  match step s with
  | .next t => step t
  | .fault r => .fault r
  | .refused r => .refused r

/-! ## Fault conditions -/

/-- The MODE field of a BEGIN_PAGE is 3 (60_exceptions.md R301, code 3). -/
def modeIsIllegal : Instr → Bool
  | .beginPage _ mode _ _ _ => decide (mode = 3)
  | _ => false

/-- A reserved head-word bit is 1 (R301, code 2). -/
def reservedIsSet : Instr → Bool
  | .beginPage r _ _ _ _ => decide (r ≠ 0)
  | .encodeLine r _ _ _ => decide (r ≠ 0)
  | .endPage r => decide (r ≠ 0)
  | .rleEncode r _ _ => decide (r ≠ 0)
  | _ => false

/-- BEGIN_PAGE outside Idle, ENCODE_LINE or END_PAGE in Idle (R301, code 4). -/
def stateViolated (i : Instr) (s : State) : Bool :=
  match i with
  | .beginPage _ _ _ _ _ => decide (s.session ≠ .idle)
  | .encodeLine _ _ _ _ => decide (s.session = .idle)
  | .endPage _ => decide (s.session = .idle)
  | _ => false

/-- NBYTES differs from BPL (R301, code 5). -/
def lengthMismatch (i : Instr) (s : State) : Bool :=
  match i with
  | .encodeLine _ _ bytes _ => decide (bytes.length ≠ s.bpl.toNat)
  | _ => false

/-- Not canceling and LINE_INDEX differs from LINE_CNT (R301, code 6). -/
def indexMismatch (i : Instr) (s : State) : Bool :=
  match i with
  | .encodeLine _ k _ _ => !(decide (s.session = .canceling) || s.cancelReq) && decide (k ≠ s.lineCnt)
  | _ => false

/-- Not canceling and LINE_CNT is at least HEIGHT (R301, code 7). -/
def lineOverrun (i : Instr) (s : State) : Bool :=
  match i with
  | .encodeLine _ _ _ _ =>
    !(decide (s.session = .canceling) || s.cancelReq) && decide (s.height.toInt ≤ (s.lineCnt.toNat : Int))
  | _ => false

/-- The causes of R301 that a decoded operation can meet, in the priority order of R303. -/
def faultConditions (i : Instr) (s : State) : List (FaultCode × Bool) :=
  [(.reservedBits, reservedIsSet i), (.illegalMode, modeIsIllegal i), (.stateViolation, stateViolated i s),
    (.lineLengthMismatch, lengthMismatch i s), (.lineIndexMismatch, indexMismatch i s),
    (.lineOverrun, lineOverrun i s)]

/-- The fault an operation reports: the first condition that holds (R303). -/
def faultOf (i : Instr) (s : State) : Option FaultCode :=
  ((faultConditions i s).find? fun c => c.2).map fun c => c.1

/-! ## The laws of a line -/

/-- `Lmax(n)` of 42_sparse_delta.md R245. -/
def lineMax (n : Nat) : Nat := 1 + ceilDiv n 64 + ceilDiv n 8 + n

/-- `Enc(D, n)`, the closed form of 42_sparse_delta.md R240. -/
def lineCode (delta : List Byte) : List Byte :=
  let g := Staging.ofDelta delta
  let leaf := fun t s => (g.leaf.getD t []).getD s 0
  g.top :: ((List.range 8).filter fun t => g.mid.getD t 0 != 0).flatMap fun t =>
    g.mid.getD t 0 :: ((List.range 8).filter fun s => leaf t s != 0).flatMap fun s =>
      leaf t s ::
        (((List.range 8).map fun j => 64 * t + 8 * s + j).filter fun i =>
          decide (i < delta.length) && (delta.getD i 0 != 0)).map fun i => delta.getD i 0

/-- How many of the bytes are not zero. -/
def countNonZero (bs : List Byte) : Nat := bs.countP fun b => b != 0

/-- Read one presence-coded group: a presence byte, then for each set bit, most significant first, a child; an
absent child is `width` zero bytes (42_sparse_delta.md R247). -/
def readChildren (child : List Byte → Option (List Byte × List Byte)) (width : Nat) (present : Byte) :
    List Nat → List Byte → Option (List Byte × List Byte)
  | [], bs => some ([], bs)
  | j :: js, bs =>
    if present.getLsbD (7 - j) then
      match child bs with
      | none => none
      | some (ds, bs') =>
        match readChildren child width present js bs' with
        | none => none
        | some (es, rest) => some (ds ++ es, rest)
    else
      match readChildren child width present js bs with
      | none => none
      | some (es, rest) => some (List.replicate width 0 ++ es, rest)

/-- Read a presence byte and its eight children. -/
def readGroup (child : List Byte → Option (List Byte × List Byte)) (width : Nat) :
    List Byte → Option (List Byte × List Byte)
  | [] => none
  | p :: bs => readChildren child width p (List.range 8) bs

/-- Read one delta byte. -/
def readByte : List Byte → Option (List Byte × List Byte)
  | [] => none
  | b :: bs => some ([b], bs)

/-- Read an encoded line: the 512 delta bytes of the three levels, and the bytes after it (R247). -/
def readDelta : List Byte → Option (List Byte × List Byte) := readGroup (readGroup (readGroup readByte 1) 8) 64

/-- Read an encoded line against its reference: the scanline, and the bytes after it (R247). -/
def readLine (ref : List Byte) (bs : List Byte) : Option (List Byte × List Byte) :=
  match readDelta bs with
  | none => none
  | some (delta, rest) => some (List.zipWith (· ^^^ ·) (delta.take ref.length) ref, rest)

/-! ## The frames of OUT -/

/-- Where in a frame a reader of OUT is. -/
inductive FramePos where
  | outside
  | high
  | low (high : Byte)
  | payload (left : Nat)
deriving DecidableEq, Repr

/-- The payload of a frame of `n` bytes begins; a frame has at least one (R284). -/
def FramePos.begin (n : Nat) : Option FramePos := if n = 0 then none else some (.payload n)

/-- Read one item outside the frames: a header begins a frame, and a terminator has none to end. -/
def FramePos.readOutside : Item → Option FramePos
  | .byte _ => some .outside
  | .setup _ _ _ _ => some .outside
  | .frameHeader _ _ _ => some .high
  | .frameTerminator => none
  | .trailer _ _ => some .outside
  | .deviceReset => some .outside

/-- Read one item that must be a byte. -/
def FramePos.readByte (next : Byte → Option FramePos) : Item → Option FramePos
  | .byte b => next b
  | _ => none

/-- Read one item: a frame is a header, a length of at least 1, that many bytes, and a terminator (R275, R284). -/
def FramePos.read : FramePos → Item → Option FramePos
  | .outside, x => readOutside x
  | .high, x => readByte (fun b => some (.low b)) x
  | .low h, x => readByte (fun l => FramePos.begin (h.toNat * 256 + l.toNat)) x
  | .payload (n + 1), x => readByte (fun _ => some (.payload n)) x
  | .payload 0, x => if x = .frameTerminator then some .outside else none

/-- Read items from a position on. -/
def FramePos.readAll : FramePos → List Item → Option FramePos
  | p, [] => some p
  | p, x :: xs =>
    match p.read x with
    | none => none
    | some q => q.readAll xs

/-- Every frame of OUT is whole and its length field counts its payload (R284). -/
def framesWhole (out : List Item) : Bool := decide (FramePos.readAll .outside out = some .outside)

/-! ## What a command leaves unchanged -/

/-- The page's parameters are unchanged. -/
def SamePage (s t : State) : Prop :=
  t.mode = s.mode ∧ t.width = s.width ∧ t.height = s.height ∧ t.bpl = s.bpl ∧ t.cfg = s.cfg

/-- The fault record is unchanged. -/
def SameFault (s t : State) : Prop := t.fault = s.fault ∧ t.faultCode = s.faultCode

/-- The cancel flags are unchanged. -/
def SameCancel (s t : State) : Prop := t.cancelReq = s.cancelReq ∧ t.cancelLatch = s.cancelLatch

/-- The chunk buffer's registers are unchanged. -/
def SameCursor (s t : State) : Prop := t.cur = s.cur ∧ t.mark = s.mark

/-- Every byte of LINE, REF and CB reads as before. -/
def SameMemories (s t : State) : Prop :=
  ∀ a, t.line.read a = s.line.read a ∧ t.ref.read a = s.ref.read a ∧ t.cb.read a = s.cb.read a

/-- The ports' own fields are unchanged. -/
def SamePorts (s t : State) : Prop :=
  t.cmdPos = s.cmdPos ∧ t.pending = s.pending ∧ t.input = s.input ∧ t.replies = s.replies

/-- The memory holds this byte sequence from address `a` on. -/
def Holds (m : Memory) (a : Nat) (bs : List Byte) : Prop := ∀ j, j < bs.length → m.read (a + j) = bs[j]?

/-- The chunk buffer of an open SparseDelta page holds the whole codes of the lines from MARK to LINE_CNT - 1, and
nothing else (43_chunk_framer.md R282; 42_sparse_delta.md R241). -/
def State.BuffersWholeLines (s : State) : Prop :=
  s.session ≠ .idle → s.mode = .sparseDelta →
    ∃ deltas : List (List Byte),
      s.mark.toNat + deltas.length = s.lineCnt.toNat ∧ (∀ d ∈ deltas, d.length = s.bpl.toNat) ∧
      s.cur.toNat = (deltas.flatMap lineCode).length ∧ Holds s.cb 0 (deltas.flatMap lineCode)

end Sys2Proof.Machine
end

