-- ==== Sys2Proof/Certificates/Slice0/Obligations.lean ====
section
/-! DEFINITION. The statements for the provers, from the numbered rules of spec/. Each docstring names the rules and
the clauses that are the model's own choice. -/

open Sys2Proof Sys2Proof.Machine

/-! ## Reset, status and the side band -/

/-- 10_state.md R55: at power-on every register of R31 holds 0 (the code 0), STATUS reads 0 and OUT is empty. -/
def Obligations.PowerOnRegistersAreZero : Prop :=
  State.reset.session.code = 0 ∧ State.reset.mode.code = 0 ∧ State.reset.width = 0 ∧ State.reset.height = 0 ∧
  State.reset.bpl = 0 ∧ State.reset.cfg = 0 ∧ State.reset.lineCnt = 0 ∧ State.reset.cur = 0 ∧
  State.reset.mark = 0 ∧ State.reset.cancelReq = false ∧ State.reset.cancelLatch = false ∧
  State.reset.beginResult.code = 0 ∧ State.reset.fault = false ∧ State.reset.faultCode.code = 0 ∧
  State.reset.pageIdx = 0 ∧ State.reset.statusWord = 0 ∧ State.reset.out = []

/-- 70_reset_and_hazards.md R340: RESET completes in every state, a command partially received or not; every register
reads 0, the partial command is discarded, the chunk buffer is empty, and OUT is unchanged. What has not arrived and
what was answered stay (the model's fields, log entries 2 and 10). -/
def Obligations.ResetEventClearsTheBlock : Prop :=
  ∀ s : State, ∃ t : State, exec .reset s = .next t ∧
    t.session = .idle ∧ t.mode = .directMaskAnd ∧ t.width = 0 ∧ t.height = 0 ∧ t.bpl = 0 ∧ t.cfg = 0 ∧
    t.lineCnt = 0 ∧ t.cur = 0 ∧ t.mark = 0 ∧ t.cancelReq = false ∧ t.cancelLatch = false ∧
    t.beginResult = .ok ∧ t.fault = false ∧ t.faultCode = .none ∧ t.pageIdx = 0 ∧ t.statusWord = 0 ∧
    t.pending = [] ∧ t.out = s.out ∧ t.input = s.input ∧ t.replies = s.replies

/-- 10_state.md R47: the fields of the STATUS word, with the codes of R34, R35, R44 and R301, and its value after reset. -/
def Obligations.StatusWordFields : Prop :=
  (∀ s : State,
    s.statusWord.extractLsb' 0 2 = (match s.session with | .idle => 0 | .active => 1 | .canceling => 2) ∧
    s.statusWord.extractLsb' 2 2 =
      (match s.mode with | .directMaskAnd => 0 | .directMaskOr => 1 | .sparseDelta => 2) ∧
    s.statusWord.getLsbD 4 = s.cancelReq ∧
    s.statusWord.getLsbD 5 = s.cancelLatch ∧
    s.statusWord.extractLsb' 6 2 = (match s.beginResult with | .ok => 0 | .geometryError => 1 | .canceled => 2) ∧
    s.statusWord.getLsbD 8 = s.fault ∧
    s.statusWord.extractLsb' 9 4 =
      (match s.faultCode with
        | .none => 0 | .illegalOpcode => 1 | .reservedBits => 2 | .illegalMode => 3 | .stateViolation => 4
        | .lineLengthMismatch => 5 | .lineIndexMismatch => 6 | .lineOverrun => 7 | .capacity => 8) ∧
    s.statusWord.extractLsb' 13 19 = 0) ∧
  State.reset.statusWord = 0x00000000#32

/-- 10_state.md R48, 40_page_session.md R175: a REG read answers the value of its index, 0 from index 8 up, and changes
nothing else. That the answer is recorded in `replies` is the model's form of the REG port (log entry 10). -/
def Obligations.ReadAnswersAndChangesNothing : Prop :=
  ∀ (index : Nat) (s : State),
    exec (.read index) s = .next { s with
      replies := s.replies ++ [⟨index,
        if index = 0 then s.statusWord else if index = 1 then s.lineCnt
        else if index = 2 then BitVec.ofNat 32 s.cur.toNat else if index = 3 then s.mark
        else if index = 4 then s.pageIdx else if index = 5 then s.bpl
        else if index = 6 then s.width else if index = 7 then s.height else 0⟩] }

/-- 40_page_session.md R170: CANCEL sets CANCEL_LATCH in Idle and CANCEL_REQ otherwise, emits nothing, touches no memory,
changes STATE in no way and is never a fault. -/
def Obligations.CancelSetsLatchOrRequest : Prop :=
  ∀ s : State,
    (s.session = .idle → exec .cancel s = .next { s with cancelLatch := true }) ∧
    (s.session ≠ .idle → exec .cancel s = .next { s with cancelReq := true })

/-! ## Faults -/

/-- 30_encoding.md R119: a command with a reserved head-word bit set faults RESERVED_BITS, in every state, and has no
effect but the fault record. -/
def Obligations.ReservedBitsFault : Prop :=
  ∀ (i : Instr) (s : State), reservedIsSet i = true →
    exec i s = .next { s with
      fault := true, faultCode := if s.faultCode = .none then .reservedBits else s.faultCode }

/-- 30_encoding.md R117: a head word whose OPC is none of 0x01 to 0x04 is a one-word command that faults
ILLEGAL_OPCODE, whatever follows it. -/
def Obligations.IllegalHeadWordFaults : Prop :=
  ∀ (s : State) (head : Word) (rest : List Input),
    head.extractLsb' 24 8 ∉ [0x01#8, 0x02#8, 0x03#8, 0x04#8] → s.pending = [] → s.input = .word head :: rest →
    step s = .next { s with
      input := rest, cmdPos := s.cmdPos + 1, fault := true,
      faultCode := if s.faultCode = .none then .illegalOpcode else s.faultCode }

/-- 60_exceptions.md R303: when fault conditions hold for a command, the first in the priority order is the one
reported, and the command has no other effect (R305). -/
def Obligations.FirstFaultConditionIsReported : Prop :=
  ∀ (i : Instr) (s : State) (c : FaultCode), faultOf i s = some c →
    exec i s = .next { s with fault := true, faultCode := if s.faultCode = .none then c else s.faultCode }

/-- 60_exceptions.md R301, R305 and 43_chunk_framer.md R283: in the states of a run, a command for which no fault
condition holds leaves the fault record as it was; CAPACITY is not raised. -/
def Obligations.NoConditionNoFaultRecord : Prop :=
  ∀ (i : Instr) (s t : State), s.Inv → i ≠ .reset → faultOf i s = none → exec i s = .next t → SameFault s t

/-- 60_exceptions.md R308: FAULT and FAULT_CODE are sticky; a second fault keeps the first code; RESET clears both. -/
def Obligations.FaultRecordIsSticky : Prop :=
  (∀ (i : Instr) (s t : State), i ≠ .reset → (s.fault = false ↔ s.faultCode = .none) → s.fault = true →
    exec i s = .next t → t.fault = true ∧ t.faultCode = s.faultCode) ∧
  (∀ s t : State, exec .reset s = .next t → t.fault = false ∧ t.faultCode = .none)

/-! ## BEGIN_PAGE -/

/-- 40_page_session.md R152: a BEGIN_PAGE that passes every check of R150 completes: it writes the page's registers,
zeroes REF, empties the chunk buffer and emits exactly the setup item. -/
def Obligations.BeginPageStartsPage : Prop :=
  ∀ (m : GraphicsMode) (width height cfg : Word) (s : State),
    s.session = .idle → s.cancelLatch = false → 0 < width.toInt → 0 < height.toInt →
    ceilDiv width.toNat 8 ≤ 65535 → (m = .sparseDelta → ceilDiv width.toNat 8 ≤ 512) →
    ∃ t : State, exec (.beginPage 0 m.code width height cfg) s = .next t ∧
      t.mode = m ∧ t.width = width ∧ t.height = height ∧ t.bpl.toNat = ceilDiv width.toNat 8 ∧ t.cfg = cfg ∧
      (∀ a, a < 512 → t.ref.read a = some 0) ∧ t.cur = 0 ∧ t.mark = 0 ∧ t.lineCnt = 0 ∧
      t.pageIdx.toNat = (s.pageIdx.toNat + 1) % 2 ^ 32 ∧ t.beginResult = .ok ∧ t.session = .active ∧
      t.out = s.out ++ [.setup cfg width height m]

/-- 40_page_session.md R151: a BEGIN_PAGE that starts no page writes BEGIN_RESULT and nothing else: CANCELED under the
latch, whatever the size; else GEOMETRY_ERROR for a size that is not positive or a line that is too long. -/
def Obligations.BeginPageRefusedOutcomes : Prop :=
  ∀ (m : GraphicsMode) (width height cfg : Word) (s : State), s.session = .idle →
    (s.cancelLatch = true →
      exec (.beginPage 0 m.code width height cfg) s = .next { s with beginResult := .canceled }) ∧
    (s.cancelLatch = false →
      (width.toInt ≤ 0 ∨ height.toInt ≤ 0 ∨ 65535 < ceilDiv width.toNat 8 ∨
        (m = .sparseDelta ∧ 512 < ceilDiv width.toNat 8)) →
      exec (.beginPage 0 m.code width height cfg) s = .next { s with beginResult := .geometryError })

/-- Frame of BEGIN_PAGE: LINE, CB, REF outside 0 to 511, the staging, the cancel flags and the ports are unchanged. -/
def Obligations.BeginPageFrame : Prop :=
  ∀ (reserved : BitVec 22) (mode : BitVec 2) (width height cfg : Word) (s t : State),
    exec (.beginPage reserved mode width height cfg) s = .next t →
    (∀ a, t.line.read a = s.line.read a ∧ t.cb.read a = s.cb.read a) ∧
    (∀ a, 512 ≤ a → t.ref.read a = s.ref.read a) ∧
    t.staging = s.staging ∧ SameCancel s t ∧ SamePorts s t

/-! ## ENCODE_LINE -/

/-- 40_page_session.md R159: in a direct mode a line that passes its checks completes: its bytes go out unchanged, first
byte first, REF, CB and CUR are untouched, and LINE and LINE_CNT are written (R158). -/
def Obligations.DirectLineIsCopied : Prop :=
  ∀ (bytes pad : List Byte) (s : State),
    (Instr.encodeLine 0 s.lineCnt bytes pad).wellFormed = true → s.session = .active → s.cancelReq = false →
    s.mode ≠ .sparseDelta → bytes.length = s.bpl.toNat → (s.lineCnt.toNat : Int) < s.height.toInt →
    ∃ t : State, exec (.encodeLine 0 s.lineCnt bytes pad) s = .next t ∧
      t.out = s.out ++ bytes.map .byte ∧ t.lineCnt.toNat = s.lineCnt.toNat + 1 ∧ Holds t.line 0 bytes ∧
      t.ref = s.ref ∧ t.cb = s.cb ∧ SameCursor s t ∧ t.session = .active

/-- 40_page_session.md R160: while canceling, a line of the right length sets STATE to Canceling and does nothing else,
whatever its index. -/
def Obligations.CancelingLineIsDiscarded : Prop :=
  ∀ (k : Word) (bytes pad : List Byte) (s : State),
    (s.session = .canceling ∨ (s.session = .active ∧ s.cancelReq = true)) → bytes.length = s.bpl.toNat →
    exec (.encodeLine 0 k bytes pad) s = .next { s with session := .canceling }

/-- 42_sparse_delta.md R230, R240, R242 and 43_chunk_framer.md R272, R274: a SparseDelta line whose worst case fits the
room left completes without a flush: its code is appended at CUR, REF takes the line, nothing is emitted. -/
def Obligations.SparseLineIsAppended : Prop :=
  ∀ (bytes pad ref : List Byte) (s : State),
    s.Inv → s.session = .active → s.cancelReq = false → s.mode = .sparseDelta → bytes.length = s.bpl.toNat →
    ref.length = s.bpl.toNat → Holds s.ref 0 ref → (s.lineCnt.toNat : Int) < s.height.toInt →
    worstCase s.bpl.toNat ≤ 65535 - s.cur.toNat →
    ∃ t : State, exec (.encodeLine 0 s.lineCnt bytes pad) s = .next t ∧
      t.out = s.out ∧ t.mark = s.mark ∧
      t.cur.toNat = s.cur.toNat + (lineCode (deltaOf bytes ref)).length ∧
      Holds t.cb s.cur.toNat (lineCode (deltaOf bytes ref)) ∧
      (∀ a, a < s.cur.toNat → t.cb.read a = s.cb.read a) ∧
      Holds t.line 0 bytes ∧ Holds t.ref 0 bytes ∧ t.lineCnt.toNat = s.lineCnt.toNat + 1 ∧ t.session = .active

/-- 43_chunk_framer.md R272, R275, R278: a SparseDelta line whose worst case exceeds the room left completes with a flush
first: the buffer goes out as one frame whose offset is MARK, MARK becomes the line's index, and the line's code
begins the empty buffer. -/
def Obligations.SparseLineFlushesFirst : Prop :=
  ∀ (bytes pad ref payload : List Byte) (s : State),
    s.Inv → s.session = .active → s.cancelReq = false → s.mode = .sparseDelta → bytes.length = s.bpl.toNat →
    ref.length = s.bpl.toNat → Holds s.ref 0 ref → (s.lineCnt.toNat : Int) < s.height.toInt →
    65535 - s.cur.toNat < worstCase s.bpl.toNat → payload.length = s.cur.toNat → Holds s.cb 0 payload →
    ∃ t : State, exec (.encodeLine 0 s.lineCnt bytes pad) s = .next t ∧
      t.out = s.out ++ ([.frameHeader s.mark s.width s.bpl, .byte (BitVec.ofNat 8 (payload.length / 256)),
        .byte (BitVec.ofNat 8 (payload.length % 256))] ++ payload.map .byte ++ [.frameTerminator]) ∧
      t.mark = s.lineCnt ∧ t.cur.toNat = (lineCode (deltaOf bytes ref)).length ∧
      Holds t.cb 0 (lineCode (deltaOf bytes ref)) ∧ Holds t.line 0 bytes ∧ Holds t.ref 0 bytes ∧
      t.lineCnt.toNat = s.lineCnt.toNat + 1 ∧ t.session = .active

/-- Frame of ENCODE_LINE: the page's parameters, the cancel flags, BEGIN_RESULT, PAGE_IDX and the ports are unchanged;
LINE changes only in 0 to NBYTES - 1; outside SparseDelta nothing else in memory changes; in SparseDelta REF changes
only in 0 to NBYTES - 1 and CB only in the bytes of the walk, from CUR, or from 0 if the pre-check fires. -/
def Obligations.EncodeLineFrame : Prop :=
  ∀ (reserved : BitVec 8) (k : Word) (bytes pad : List Byte) (s t : State),
    exec (.encodeLine reserved k bytes pad) s = .next t →
    SamePage s t ∧ SameCancel s t ∧ t.beginResult = s.beginResult ∧ t.pageIdx = s.pageIdx ∧ SamePorts s t ∧
    (∀ a, bytes.length ≤ a → t.line.read a = s.line.read a) ∧
    (s.mode ≠ .sparseDelta →
      (∀ a, t.ref.read a = s.ref.read a ∧ t.cb.read a = s.cb.read a) ∧ t.staging = s.staging ∧ SameCursor s t) ∧
    (s.mode = .sparseDelta → ∀ start : Nat,
      start = (if s.room < worstCase s.bpl.toNat then 0 else s.cur.toNat) →
      (∀ a, bytes.length ≤ a → t.ref.read a = s.ref.read a) ∧
      (∀ a, (a < start ∨ start + t.staging.walk.length ≤ a) → t.cb.read a = s.cb.read a))

/-- 92_eei_decisions.md D17, 40_page_session.md R153: DirectMaskAND and DirectMaskOR treat a line alike. -/
def Obligations.DirectModesTreatLinesAlike : Prop :=
  ∀ (reserved : BitVec 8) (k : Word) (bytes pad : List Byte) (s : State), s.mode = .directMaskAnd →
    exec (.encodeLine reserved k bytes pad) { s with mode := .directMaskOr } =
      mapNext (fun t => { t with mode := .directMaskOr }) (exec (.encodeLine reserved k bytes pad) s)

/-- 10_state.md R38: CFG is opaque: encoding a line, and a run-length command, neither read nor change it. -/
def Obligations.ConfigurationDoesNotReachLines : Prop :=
  ∀ (i : Instr) (c : Word) (s : State),
    (∃ (r : BitVec 8) (k : Word) (bytes pad : List Byte), i = .encodeLine r k bytes pad) ∨
      (∃ (r : BitVec 16) (ch : Byte) (n : Word), i = .rleEncode r ch n) →
    exec i { s with cfg := c } = mapNext (fun t => { t with cfg := c }) (exec i s)

/-! ## END_PAGE -/

/-- 40_page_session.md R166: END_PAGE of an open page completes: it samples CANCEL_REQ; in SparseDelta mode it emits the
buffer, if it is not empty, as one frame and empties it with MARK 0; then it emits the trailer, or the device reset
with the latch set; then CANCEL_REQ is 0 and STATE is Idle. Everything else keeps its value. -/
def Obligations.EndPageClosesPage : Prop :=
  ∀ (payload : List Byte) (s : State),
    s.session ≠ .idle → payload.length = s.cur.toNat → Holds s.cb 0 payload →
    exec (.endPage 0) s = .next { s with
      out := s.out ++
        (if s.mode = .sparseDelta ∧ s.cur ≠ 0 then
          [.frameHeader s.mark s.width s.bpl, .byte (BitVec.ofNat 8 (payload.length / 256)),
            .byte (BitVec.ofNat 8 (payload.length % 256))] ++ payload.map .byte ++ [.frameTerminator]
        else []) ++
        (if s.session = .canceling ∨ s.cancelReq = true then [.deviceReset] else [.trailer s.cfg s.mode]),
      cur := if s.mode = .sparseDelta then 0 else s.cur,
      mark := if s.mode = .sparseDelta ∧ s.cur ≠ 0 then 0 else s.mark,
      cancelLatch := s.cancelLatch || (decide (s.session = .canceling) || s.cancelReq),
      cancelReq := false, session := .idle }

/-! ## RLE_ENCODE -/

/-- 41_run_alphabet.md R203: RLE_ENCODE completes in every state; from 2 repeats up it emits the greedy decomposition of
the count, which is unique, then the character, and below 2 the character alone (R201). It changes nothing but OUT. -/
def Obligations.RleEmitsDecomposition : Prop :=
  ∀ (c : Byte) (n : Word) (s : State),
    (n.toNat < 2 → exec (.rleEncode 0 c n) s = .next { s with out := s.out ++ [.byte c] }) ∧
    (2 ≤ n.toNat → ∃ q u r : Nat, 400 * q + 20 * u + r = n.toNat ∧ u < 20 ∧ r < 20 ∧
      (∀ q' u' r' : Nat, 400 * q' + 20 * u' + r' = n.toNat → u' < 20 → r' < 20 → q' = q ∧ u' = u ∧ r' = r) ∧
      exec (.rleEncode 0 c n) s = .next { s with
        out := s.out ++ (List.replicate q tokenT400 ++ (if 1 ≤ u then [tokenT20 u] else [])
          ++ (if 1 ≤ r then [tokenT1 r] else []) ++ [c]).map .byte })

/-- 41_run_alphabet.md R201: the greedy steps: a 400 token and 400 fewer while the count is at least 400; then one token
for the 20s and the rest; then one token for the rest; the guard is on the initial count only. -/
def Obligations.RunTokensAreGreedy : Prop :=
  (∀ n : Nat, 400 ≤ n → runTokens n = tokenT400 :: runTokens (n - 400)) ∧
  (∀ n : Nat, 20 ≤ n → n < 400 → runTokens n = tokenT20 (n / 20) :: runTokens (n % 20)) ∧
  (∀ n : Nat, 0 < n → n < 20 → runTokens n = [tokenT1 n]) ∧
  (∀ (c : Byte) (n : Nat), runBytes c n = if n = 0 ∨ n = 1 then [c] else runTokens n ++ [c])

/-- 41_run_alphabet.md R204: how many items RLE_ENCODE emits. -/
def Obligations.RleOutputLength : Prop :=
  ∀ (c : Byte) (n : Word) (s t : State), exec (.rleEncode 0 c n) s = .next t →
    t.out.length = s.out.length +
      (if n.toNat ≤ 1 then 1
       else n.toNat / 400 + (if 20 ≤ n.toNat % 400 then 1 else 0) + (if 1 ≤ n.toNat % 20 then 1 else 0) + 1)

/-- 41_run_alphabet.md R202: the 39 token bytes are pairwise distinct, whatever the alphabet. -/
def Obligations.RunAlphabetIsDistinct : Prop :=
  (tokenT400 :: ((List.range 19).map fun u => tokenT20 (u + 1)) ++ ((List.range 19).map fun r => tokenT1 (r + 1))).Nodup

/-! ## The codec -/

/-- 42_sparse_delta.md R233, R234, R236: bit `7 - j` of a leaf byte says whether delta byte `64t + 8s + j` is not zero,
bit `7 - s` of a mid byte whether that leaf byte is not zero, bit `7 - t` of the top byte whether that mid byte is. -/
def Obligations.PresenceBitsNameChildren : Prop :=
  ∀ (delta : List Byte) (t s j : Nat), t < 8 → s < 8 → j < 8 →
    ((((Staging.ofDelta delta).leaf.getD t []).getD s 0).getLsbD (7 - j) = true ↔
      delta.getD (64 * t + 8 * s + j) 0 ≠ 0) ∧
    (((Staging.ofDelta delta).mid.getD t 0).getLsbD (7 - s) = true ↔
      ((Staging.ofDelta delta).leaf.getD t []).getD s 0 ≠ 0) ∧
    ((Staging.ofDelta delta).top.getLsbD (7 - t) = true ↔ (Staging.ofDelta delta).mid.getD t 0 ≠ 0)

/-- 42_sparse_delta.md R240: the walk of a line's staging is the closed form. -/
def Obligations.WalkIsClosedForm : Prop :=
  ∀ delta : List Byte, delta.length ≤ 512 → (Staging.ofDelta delta).walk = lineCode delta

/-- 42_sparse_delta.md R243: an unchanged line appends exactly one zero byte. -/
def Obligations.UnchangedLineCostsOneByte : Prop :=
  ∀ line : List Byte, (Staging.ofDelta (deltaOf line line)).walk = [0x00#8]

/-- 42_sparse_delta.md R244: a line with exactly one changed byte appends exactly four bytes. -/
def Obligations.OneChangedByteCostsFour : Prop :=
  ∀ (delta : List Byte) (i : Nat), delta.length ≤ 512 → i < delta.length → delta.getD i 0 ≠ 0 →
    (∀ j, j ≠ i → delta.getD j 0 = 0) →
    (Staging.ofDelta delta).walk =
      [0x80#8 >>> (i / 64), 0x80#8 >>> (i / 8 % 8), 0x80#8 >>> (i % 8), delta.getD i 0]

/-- 42_sparse_delta.md R245: a line appends one byte, and one for each mid byte, leaf byte and delta byte that is not
zero; that is `Lmax(n)` when every delta byte is changed, and never more. -/
def Obligations.LineLengthIsExact : Prop :=
  ∀ delta : List Byte, 1 ≤ delta.length → delta.length ≤ 512 →
    (Staging.ofDelta delta).walk.length =
      1 + countNonZero (Staging.ofDelta delta).mid + countNonZero (Staging.ofDelta delta).leaf.flatten
        + countNonZero delta ∧
    (Staging.ofDelta delta).walk.length ≤ lineMax delta.length ∧
    ((∀ b ∈ delta, b ≠ 0) → (Staging.ofDelta delta).walk.length = lineMax delta.length)

/-- 42_sparse_delta.md R246: the pre-check bound is an upper bound for every accepted line length, and is the exact worst
case exactly for 1 to 8 bytes. -/
def Obligations.WorstCaseBoundHolds : Prop :=
  ∀ n : Nat, 1 ≤ n → n ≤ 512 →
    lineMax n ≤ worstCase n ∧ (lineMax n = worstCase n ↔ n ≤ 8) ∧ lineMax n < 1 + n + 3 * ceilDiv n 8

/-- 42_sparse_delta.md R247: the appended bytes and REF determine the line, and the reading consumes exactly them,
whatever follows. -/
def Obligations.LineCodeIsDecodable : Prop :=
  ∀ line ref rest : List Byte, line.length = ref.length → ref.length ≤ 512 →
    readLine ref ((Staging.ofDelta (deltaOf line ref)).walk ++ rest) = some (line, rest)

/-! ## The framer -/

/-- 43_chunk_framer.md R274, 42_sparse_delta.md R241: appending a byte sequence is appending its bytes one at a time,
ended by the first that finds the buffer full. -/
def Obligations.AppendBytesIsTheLoop : Prop :=
  ∀ s : State, s.cb.wf = true →
    s.appendBytes [] = .done s ∧
    ∀ (b : Byte) (bs : List Byte), s.appendBytes (b :: bs) = (s.append b).andThen fun t => t.appendBytes bs

/-- 43_chunk_framer.md R272, R283: after the pre-check of an accepted line length, the worst case fits the room left. -/
def Obligations.PreCheckLeavesRoom : Prop :=
  ∀ (n : Nat) (k : Word) (s t : State), n ≤ 512 → s.preCheck n k = .done t → worstCase n ≤ 65535 - t.cur.toNat

/-- 43_chunk_framer.md R276: a flush of an empty buffer does nothing; 43_chunk_framer.md R273: a pre-check on an empty
buffer never flushes. -/
def Obligations.EmptyBufferIsNotFlushed : Prop :=
  ∀ (s : State) (k : Word), s.cur = 0 → s.flush k = .done s ∧ ∀ n, n ≤ 512 → s.preCheck n k = .done s

/-! ## Encoding -/

/-- 30_encoding.md R113 to R116, R126: decoding the words of a well-formed command gives it back, with the words after it
left over. -/
def Obligations.DecodeOfEncode : Prop :=
  ∀ (i : Instr) (rest : List Word), i.wellFormed = true → i.isCommand = true →
    decode (encode i ++ rest) = .command i rest

/-- 30_encoding.md R126: a decoded command is well-formed, and its words are the ones read: no bit is dropped. -/
def Obligations.EncodeOfDecode : Prop :=
  ∀ (ws rest : List Word) (i : Instr), decode ws = .command i rest →
    i.wellFormed = true ∧ i.isCommand = true ∧ encode i ++ rest = ws

/-- 30_encoding.md R118: the length follows from the head word alone: shorter is incomplete, and otherwise exactly that
many words are taken, whatever they are. -/
def Obligations.CommandLengthFromHead : Prop :=
  ∀ (head : Word) (ws : List Word),
    (ws.length + 1 < commandLength head → decode (head :: ws) = .incomplete) ∧
    (commandLength head ≤ ws.length + 1 →
      (∃ i, decode (head :: ws) = .command i ((head :: ws).drop (commandLength head))) ∨
      decode (head :: ws) = .illegalOpcode head ((head :: ws).drop 1) ∧ commandLength head = 1)

/-- 30_encoding.md R124: scanline byte `j` is bits [31 - 8(j mod 4) : 24 - 8(j mod 4)] of payload word `j div 4`, and
there are NBYTES of them; the values of the pad bytes after them are ignored. -/
def Obligations.PayloadPacking : Prop :=
  ∀ (head index : Word) (ws rest : List Word) (r : BitVec 8) (k : Word) (bytes pad : List Byte),
    decode (head :: index :: ws) = .command (.encodeLine r k bytes pad) rest →
    bytes.length = (head.extractLsb' 0 16).toNat ∧ k = index ∧ r = head.extractLsb' 16 8 ∧
    (∀ j, j < bytes.length → bytes[j]? = (ws[j / 4]?).map fun w => w.extractLsb' (24 - 8 * (j % 4)) 8) ∧
    ∀ (pad' : List Byte) (s : State), exec (.encodeLine r k bytes pad') s = exec (.encodeLine r k bytes pad) s

/-- 30_encoding.md R113 to R116: words written out from the tables decode to what they stand for. -/
def Obligations.EncodingTableWords : Prop :=
  decode [0x01000002#32, 0x00000040#32, 0x00000003#32, 0x00000000#32] = .command (.beginPage 0 2 64 3 0) [] ∧
  decode [0x02000005#32, 0x00000000#32, 0x11223344#32, 0x55667788#32] =
    .command (.encodeLine 0 0 [0x11, 0x22, 0x33, 0x44, 0x55] [0x66, 0x77, 0x88]) [] ∧
  decode [0x03000000#32] = .command (.endPage 0) [] ∧
  decode [0x04000041#32, 0x000001C2#32] = .command (.rleEncode 0 0x41 450) [] ∧
  decode [0x05000000#32] = .illegalOpcode 0x05000000#32 []

/-! ## The step -/

/-- 20_memory.md R90, 30_encoding.md R118, 10_state.md R32: when the words received and the words next on CMD are those
of a well-formed command, the step runs it, past its words and with `cmd_pos` past them. -/
def Obligations.StepRunsTheCommand : Prop :=
  ∀ (i : Instr) (ws : List Word) (rest : List Input) (s : State),
    i.wellFormed = true → i.isCommand = true → s.pending ++ ws = encode i → s.input = ws.map .word ++ rest →
    step s = exec i { s with pending := [], input := rest, cmdPos := s.cmdPos + (encode i).length }

/-- 20_memory.md R91, R92, 70_reset_and_hazards.md R340: an event that comes before a command's last word runs first, and
the words before it stay received for it. -/
def Obligations.StepRunsTheEvent : Prop :=
  ∀ (ws : List Word) (rest : List Input) (s : State), decode (s.pending ++ ws) = .incomplete →
    (s.input = ws.map .word ++ .cancel :: rest →
      step s = exec .cancel { s with pending := s.pending ++ ws, input := rest }) ∧
    (s.input = ws.map .word ++ .reset :: rest →
      step s = exec .reset { s with pending := s.pending ++ ws, input := rest }) ∧
    (∀ index, s.input = ws.map .word ++ .read index :: rest →
      step s = exec (.read index) { s with pending := s.pending ++ ws, input := rest })

/-- 30_encoding.md R118, 60_exceptions.md R318: with words of a command missing the block waits, all state kept but the
words received. That waiting is a step is the model's form of it (log entry 3). -/
def Obligations.StepWaitsForWords : Prop :=
  ∀ (ws : List Word) (s : State), decode (s.pending ++ ws) = .incomplete → s.input = ws.map .word →
    step s = .next { s with pending := s.pending ++ ws, input := [] }

/-- 20_memory.md R91: a CANCEL that arrives among the words of a command acts as one placed before it: after both
steps the states are equal. -/
def Obligations.CancelAmongWordsActsBefore : Prop :=
  ∀ (i : Instr) (ws ws' : List Word) (rest : List Input) (s : State),
    i.wellFormed = true → i.isCommand = true → ws ++ ws' = encode i → ws' ≠ [] → s.pending = [] →
    stepTwice { s with input := ws.map .word ++ .cancel :: (ws'.map .word ++ rest) } =
      stepTwice { s with input := .cancel :: (ws.map .word ++ ws'.map .word ++ rest) }

/-! ## Whole-machine rules -/

/-- 10_state.md R34: the transitions of STATE: an open page is never opened again, Idle becomes Active by BEGIN_PAGE
alone, Canceling comes from ENCODE_LINE alone, and a page is closed by END_PAGE and RESET alone. -/
def Obligations.SessionTransitions : Prop :=
  ∀ (i : Instr) (s t : State), exec i s = .next t →
    (s.session = .idle → t.session ≠ .idle →
      t.session = .active ∧ ∃ r m w h c, i = .beginPage r m w h c) ∧
    (s.session = .active → t.session = .canceling → ∃ r k bytes pad, i = .encodeLine r k bytes pad) ∧
    (s.session = .canceling → t.session ≠ .active) ∧
    (s.session ≠ .idle → t.session = .idle → i = .reset ∨ ∃ r, i = .endPage r)

/-- 10_state.md R35, R36, R37, R38: the page's parameters are immutable while a page is open, and only a BEGIN_PAGE that
starts a page, or RESET, writes them. -/
def Obligations.PageParametersAreImmutable : Prop :=
  ∀ (i : Instr) (s t : State), exec i s = .next t → i ≠ .reset → s.session ≠ .idle ∨ t.session = .idle → SamePage s t

/-- 10_state.md R52: OUT is append-only: no operation, RESET included, retracts an item. -/
def Obligations.OutIsAppendOnly : Prop :=
  ∀ s t : State, step s = .next t → s.out <+: t.out

/-- 10_state.md R43: only RESET clears CANCEL_LATCH, and while it is set no page is started. -/
def Obligations.CancelLatchStopsPages : Prop :=
  ∀ (i : Instr) (s t : State), i ≠ .reset → s.cancelLatch = true → exec i s = .next t →
    t.cancelLatch = true ∧ t.pageIdx = s.pageIdx ∧ (s.session = .idle → t.session = .idle)

/-- Frame of END_PAGE, RLE_ENCODE, CANCEL and READ, which store nothing in LINE, REF or CB: the memories, the staging,
the page's parameters, LINE_CNT, BEGIN_RESULT and PAGE_IDX are unchanged, and so are, but for END_PAGE, CUR and MARK,
but for READ, the answers, and, but for END_PAGE and CANCEL, STATE and the cancel flags. -/
def Obligations.NonStoringOperationsFrame : Prop :=
  ∀ (i : Instr) (s t : State),
    (∃ r, i = .endPage r) ∨ (∃ r c n, i = .rleEncode r c n) ∨ i = .cancel ∨ (∃ n, i = .read n) →
    exec i s = .next t →
    SameMemories s t ∧ t.staging = s.staging ∧ SamePage s t ∧ t.lineCnt = s.lineCnt ∧
    t.beginResult = s.beginResult ∧ t.pageIdx = s.pageIdx ∧
    t.cmdPos = s.cmdPos ∧ t.pending = s.pending ∧ t.input = s.input ∧
    ((∀ n, i ≠ .read n) → t.replies = s.replies) ∧
    ((∀ r, i ≠ .endPage r) → SameCursor s t ∧ t.session = s.session) ∧
    ((∀ r, i ≠ .endPage r) → i ≠ .cancel → SameCancel s t) ∧
    (i = .cancel ∨ (∃ n, i = .read n) → SameFault s t ∧ t.out = s.out)

/-- 10_state.md R54 at reset: State.reset satisfies the invariant. -/
def Obligations.InvariantHoldsAtReset : Prop := State.reset.Inv

/-- 10_state.md R54, R56: every step keeps the invariant. -/
def Obligations.StepKeepsInvariant : Prop :=
  ∀ s t : State, s.Inv → step s = .next t → t.Inv

/-- 60_exceptions.md R319, 10_state.md R56, 43_chunk_framer.md R283: from a state of a run every step answers a next
state: nothing is refused, no byte is read that was not written, no address outside a memory is formed. -/
def Obligations.StepAlwaysAnswers : Prop :=
  ∀ s : State, s.Inv → ∃ t : State, step s = .next t

/-- 43_chunk_framer.md R284: OUT has no broken frame at reset, and every step keeps every frame whole, its two-byte
length field of at least 1 counting its payload, whatever is run. -/
def Obligations.FramesStayWhole : Prop :=
  framesWhole State.reset.out = true ∧
  ∀ s t : State, framesWhole s.out = true → step s = .next t → framesWhole t.out = true

/-- 43_chunk_framer.md R282, 42_sparse_delta.md R241: every step keeps the chunk buffer made of whole line codes, those of
the lines from MARK to LINE_CNT - 1; a flush never splits a line. -/
def Obligations.BufferKeepsWholeLines : Prop :=
  ∀ s t : State, s.Inv → s.BuffersWholeLines → step s = .next t → t.BuffersWholeLines

/-- 40_page_session.md R185, R175: a finished run stays finished and its observation is final: a step answers a next
state, whether a REG read is left to answer or the block waits, that is finished, as clean as before, and observes the
same. That a step waits, and that an answer is recorded, are the model's (log entries 3 and 10). -/
def Obligations.FinishedRunKeepsObservation : Prop :=
  ∀ s : State, s.finished = true →
    ∃ t : State, step s = .next t ∧ t.finished = true ∧ t.clean = s.clean ∧ t.observe = s.observe
end

