-- ==== Sys2Proof/Laws/State.lean ====
section
/-! SUPPORT. What each named update of the state does to each field: no proof unfolds a record update. -/

namespace Sys2Proof.Machine

variable (s : State)

/-! ## `emit` -/

@[simp] theorem State.emit_session (items : List Item) : (s.emit items).session = s.session := rfl
@[simp] theorem State.emit_mode (items : List Item) : (s.emit items).mode = s.mode := rfl
@[simp] theorem State.emit_width (items : List Item) : (s.emit items).width = s.width := rfl
@[simp] theorem State.emit_height (items : List Item) : (s.emit items).height = s.height := rfl
@[simp] theorem State.emit_bpl (items : List Item) : (s.emit items).bpl = s.bpl := rfl
@[simp] theorem State.emit_cfg (items : List Item) : (s.emit items).cfg = s.cfg := rfl
@[simp] theorem State.emit_lineCnt (items : List Item) : (s.emit items).lineCnt = s.lineCnt := rfl
@[simp] theorem State.emit_cur (items : List Item) : (s.emit items).cur = s.cur := rfl
@[simp] theorem State.emit_mark (items : List Item) : (s.emit items).mark = s.mark := rfl
@[simp] theorem State.emit_cancelReq (items : List Item) : (s.emit items).cancelReq = s.cancelReq := rfl
@[simp] theorem State.emit_cancelLatch (items : List Item) : (s.emit items).cancelLatch = s.cancelLatch := rfl
@[simp] theorem State.emit_beginResult (items : List Item) : (s.emit items).beginResult = s.beginResult := rfl
@[simp] theorem State.emit_fault (items : List Item) : (s.emit items).fault = s.fault := rfl
@[simp] theorem State.emit_faultCode (items : List Item) : (s.emit items).faultCode = s.faultCode := rfl
@[simp] theorem State.emit_pageIdx (items : List Item) : (s.emit items).pageIdx = s.pageIdx := rfl
@[simp] theorem State.emit_line (items : List Item) : (s.emit items).line = s.line := rfl
@[simp] theorem State.emit_ref (items : List Item) : (s.emit items).ref = s.ref := rfl
@[simp] theorem State.emit_cb (items : List Item) : (s.emit items).cb = s.cb := rfl
@[simp] theorem State.emit_staging (items : List Item) : (s.emit items).staging = s.staging := rfl
@[simp] theorem State.emit_out (items : List Item) : (s.emit items).out = s.out ++ items := rfl
@[simp] theorem State.emit_cmdPos (items : List Item) : (s.emit items).cmdPos = s.cmdPos := rfl
@[simp] theorem State.emit_pending (items : List Item) : (s.emit items).pending = s.pending := rfl
@[simp] theorem State.emit_input (items : List Item) : (s.emit items).input = s.input := rfl
@[simp] theorem State.emit_replies (items : List Item) : (s.emit items).replies = s.replies := rfl

/-! ## `emitBytes` -/

@[simp] theorem State.emitBytes_session (bs : List Byte) : (s.emitBytes bs).session = s.session := rfl
@[simp] theorem State.emitBytes_mode (bs : List Byte) : (s.emitBytes bs).mode = s.mode := rfl
@[simp] theorem State.emitBytes_width (bs : List Byte) : (s.emitBytes bs).width = s.width := rfl
@[simp] theorem State.emitBytes_height (bs : List Byte) : (s.emitBytes bs).height = s.height := rfl
@[simp] theorem State.emitBytes_bpl (bs : List Byte) : (s.emitBytes bs).bpl = s.bpl := rfl
@[simp] theorem State.emitBytes_cfg (bs : List Byte) : (s.emitBytes bs).cfg = s.cfg := rfl
@[simp] theorem State.emitBytes_lineCnt (bs : List Byte) : (s.emitBytes bs).lineCnt = s.lineCnt := rfl
@[simp] theorem State.emitBytes_cur (bs : List Byte) : (s.emitBytes bs).cur = s.cur := rfl
@[simp] theorem State.emitBytes_mark (bs : List Byte) : (s.emitBytes bs).mark = s.mark := rfl
@[simp] theorem State.emitBytes_cancelReq (bs : List Byte) : (s.emitBytes bs).cancelReq = s.cancelReq := rfl
@[simp] theorem State.emitBytes_cancelLatch (bs : List Byte) : (s.emitBytes bs).cancelLatch = s.cancelLatch := rfl
@[simp] theorem State.emitBytes_beginResult (bs : List Byte) : (s.emitBytes bs).beginResult = s.beginResult := rfl
@[simp] theorem State.emitBytes_fault (bs : List Byte) : (s.emitBytes bs).fault = s.fault := rfl
@[simp] theorem State.emitBytes_faultCode (bs : List Byte) : (s.emitBytes bs).faultCode = s.faultCode := rfl
@[simp] theorem State.emitBytes_pageIdx (bs : List Byte) : (s.emitBytes bs).pageIdx = s.pageIdx := rfl
@[simp] theorem State.emitBytes_line (bs : List Byte) : (s.emitBytes bs).line = s.line := rfl
@[simp] theorem State.emitBytes_ref (bs : List Byte) : (s.emitBytes bs).ref = s.ref := rfl
@[simp] theorem State.emitBytes_cb (bs : List Byte) : (s.emitBytes bs).cb = s.cb := rfl
@[simp] theorem State.emitBytes_staging (bs : List Byte) : (s.emitBytes bs).staging = s.staging := rfl
@[simp] theorem State.emitBytes_out (bs : List Byte) : (s.emitBytes bs).out = s.out ++ bs.map .byte := rfl
@[simp] theorem State.emitBytes_cmdPos (bs : List Byte) : (s.emitBytes bs).cmdPos = s.cmdPos := rfl
@[simp] theorem State.emitBytes_pending (bs : List Byte) : (s.emitBytes bs).pending = s.pending := rfl
@[simp] theorem State.emitBytes_input (bs : List Byte) : (s.emitBytes bs).input = s.input := rfl
@[simp] theorem State.emitBytes_replies (bs : List Byte) : (s.emitBytes bs).replies = s.replies := rfl

/-! ## recording a fault -/

@[simp] theorem State.recordFault_session (c : FaultCode) : (s.recordFault c).session = s.session := rfl
@[simp] theorem State.recordFault_mode (c : FaultCode) : (s.recordFault c).mode = s.mode := rfl
@[simp] theorem State.recordFault_width (c : FaultCode) : (s.recordFault c).width = s.width := rfl
@[simp] theorem State.recordFault_height (c : FaultCode) : (s.recordFault c).height = s.height := rfl
@[simp] theorem State.recordFault_bpl (c : FaultCode) : (s.recordFault c).bpl = s.bpl := rfl
@[simp] theorem State.recordFault_cfg (c : FaultCode) : (s.recordFault c).cfg = s.cfg := rfl
@[simp] theorem State.recordFault_lineCnt (c : FaultCode) : (s.recordFault c).lineCnt = s.lineCnt := rfl
@[simp] theorem State.recordFault_cur (c : FaultCode) : (s.recordFault c).cur = s.cur := rfl
@[simp] theorem State.recordFault_mark (c : FaultCode) : (s.recordFault c).mark = s.mark := rfl
@[simp] theorem State.recordFault_cancelReq (c : FaultCode) : (s.recordFault c).cancelReq = s.cancelReq := rfl
@[simp] theorem State.recordFault_cancelLatch (c : FaultCode) : (s.recordFault c).cancelLatch = s.cancelLatch := rfl
@[simp] theorem State.recordFault_beginResult (c : FaultCode) : (s.recordFault c).beginResult = s.beginResult := rfl
@[simp] theorem State.recordFault_fault (c : FaultCode) : (s.recordFault c).fault = true := rfl
@[simp] theorem State.recordFault_faultCode (c : FaultCode) : (s.recordFault c).faultCode = if s.faultCode = .none then c else s.faultCode :=
  rfl
@[simp] theorem State.recordFault_pageIdx (c : FaultCode) : (s.recordFault c).pageIdx = s.pageIdx := rfl
@[simp] theorem State.recordFault_line (c : FaultCode) : (s.recordFault c).line = s.line := rfl
@[simp] theorem State.recordFault_ref (c : FaultCode) : (s.recordFault c).ref = s.ref := rfl
@[simp] theorem State.recordFault_cb (c : FaultCode) : (s.recordFault c).cb = s.cb := rfl
@[simp] theorem State.recordFault_staging (c : FaultCode) : (s.recordFault c).staging = s.staging := rfl
@[simp] theorem State.recordFault_out (c : FaultCode) : (s.recordFault c).out = s.out := rfl
@[simp] theorem State.recordFault_cmdPos (c : FaultCode) : (s.recordFault c).cmdPos = s.cmdPos := rfl
@[simp] theorem State.recordFault_pending (c : FaultCode) : (s.recordFault c).pending = s.pending := rfl
@[simp] theorem State.recordFault_input (c : FaultCode) : (s.recordFault c).input = s.input := rfl
@[simp] theorem State.recordFault_replies (c : FaultCode) : (s.recordFault c).replies = s.replies := rfl

/-! ## a refused page -/

@[simp] theorem State.refusePage_session (r : BeginResult) : (s.refusePage r).session = s.session := rfl
@[simp] theorem State.refusePage_mode (r : BeginResult) : (s.refusePage r).mode = s.mode := rfl
@[simp] theorem State.refusePage_width (r : BeginResult) : (s.refusePage r).width = s.width := rfl
@[simp] theorem State.refusePage_height (r : BeginResult) : (s.refusePage r).height = s.height := rfl
@[simp] theorem State.refusePage_bpl (r : BeginResult) : (s.refusePage r).bpl = s.bpl := rfl
@[simp] theorem State.refusePage_cfg (r : BeginResult) : (s.refusePage r).cfg = s.cfg := rfl
@[simp] theorem State.refusePage_lineCnt (r : BeginResult) : (s.refusePage r).lineCnt = s.lineCnt := rfl
@[simp] theorem State.refusePage_cur (r : BeginResult) : (s.refusePage r).cur = s.cur := rfl
@[simp] theorem State.refusePage_mark (r : BeginResult) : (s.refusePage r).mark = s.mark := rfl
@[simp] theorem State.refusePage_cancelReq (r : BeginResult) : (s.refusePage r).cancelReq = s.cancelReq := rfl
@[simp] theorem State.refusePage_cancelLatch (r : BeginResult) : (s.refusePage r).cancelLatch = s.cancelLatch := rfl
@[simp] theorem State.refusePage_beginResult (r : BeginResult) : (s.refusePage r).beginResult = r := rfl
@[simp] theorem State.refusePage_fault (r : BeginResult) : (s.refusePage r).fault = s.fault := rfl
@[simp] theorem State.refusePage_faultCode (r : BeginResult) : (s.refusePage r).faultCode = s.faultCode := rfl
@[simp] theorem State.refusePage_pageIdx (r : BeginResult) : (s.refusePage r).pageIdx = s.pageIdx := rfl
@[simp] theorem State.refusePage_line (r : BeginResult) : (s.refusePage r).line = s.line := rfl
@[simp] theorem State.refusePage_ref (r : BeginResult) : (s.refusePage r).ref = s.ref := rfl
@[simp] theorem State.refusePage_cb (r : BeginResult) : (s.refusePage r).cb = s.cb := rfl
@[simp] theorem State.refusePage_staging (r : BeginResult) : (s.refusePage r).staging = s.staging := rfl
@[simp] theorem State.refusePage_out (r : BeginResult) : (s.refusePage r).out = s.out := rfl
@[simp] theorem State.refusePage_cmdPos (r : BeginResult) : (s.refusePage r).cmdPos = s.cmdPos := rfl
@[simp] theorem State.refusePage_pending (r : BeginResult) : (s.refusePage r).pending = s.pending := rfl
@[simp] theorem State.refusePage_input (r : BeginResult) : (s.refusePage r).input = s.input := rfl
@[simp] theorem State.refusePage_replies (r : BeginResult) : (s.refusePage r).replies = s.replies := rfl

/-! ## the commit of BEGIN_PAGE -/

@[simp] theorem State.openPage_session (m : GraphicsMode) (w h c : Word) : (s.openPage m w h c).session = .active :=
  rfl
@[simp] theorem State.openPage_mode (m : GraphicsMode) (w h c : Word) : (s.openPage m w h c).mode = m := rfl
@[simp] theorem State.openPage_width (m : GraphicsMode) (w h c : Word) : (s.openPage m w h c).width = w := rfl
@[simp] theorem State.openPage_height (m : GraphicsMode) (w h c : Word) : (s.openPage m w h c).height = h := rfl
@[simp] theorem State.openPage_bpl (m : GraphicsMode) (w h c : Word) : (s.openPage m w h c).bpl = BitVec.ofNat 32 (bytesPerLine w) :=
  rfl
@[simp] theorem State.openPage_cfg (m : GraphicsMode) (w h c : Word) : (s.openPage m w h c).cfg = c := rfl
@[simp] theorem State.openPage_lineCnt (m : GraphicsMode) (w h c : Word) : (s.openPage m w h c).lineCnt = 0 := rfl
@[simp] theorem State.openPage_cur (m : GraphicsMode) (w h c : Word) : (s.openPage m w h c).cur = 0 := rfl
@[simp] theorem State.openPage_mark (m : GraphicsMode) (w h c : Word) : (s.openPage m w h c).mark = 0 := rfl
@[simp] theorem State.openPage_cancelReq (m : GraphicsMode) (w h c : Word) : (s.openPage m w h c).cancelReq = s.cancelReq :=
  rfl
@[simp] theorem State.openPage_cancelLatch (m : GraphicsMode) (w h c : Word) : (s.openPage m w h c).cancelLatch = s.cancelLatch :=
  rfl
@[simp] theorem State.openPage_beginResult (m : GraphicsMode) (w h c : Word) : (s.openPage m w h c).beginResult = .ok :=
  rfl
@[simp] theorem State.openPage_fault (m : GraphicsMode) (w h c : Word) : (s.openPage m w h c).fault = s.fault := rfl
@[simp] theorem State.openPage_faultCode (m : GraphicsMode) (w h c : Word) : (s.openPage m w h c).faultCode = s.faultCode :=
  rfl
@[simp] theorem State.openPage_pageIdx (m : GraphicsMode) (w h c : Word) : (s.openPage m w h c).pageIdx = s.pageIdx + 1 :=
  rfl
@[simp] theorem State.openPage_line (m : GraphicsMode) (w h c : Word) : (s.openPage m w h c).line = s.line := rfl
@[simp] theorem State.openPage_ref (m : GraphicsMode) (w h c : Word) : (s.openPage m w h c).ref = s.ref.store 0 (List.replicate Config.maxBplDelta 0) :=
  rfl
@[simp] theorem State.openPage_cb (m : GraphicsMode) (w h c : Word) : (s.openPage m w h c).cb = s.cb := rfl
@[simp] theorem State.openPage_staging (m : GraphicsMode) (w h c : Word) : (s.openPage m w h c).staging = s.staging :=
  rfl
@[simp] theorem State.openPage_out (m : GraphicsMode) (w h c : Word) : (s.openPage m w h c).out = s.out ++ [.setup c w h m] :=
  rfl
@[simp] theorem State.openPage_cmdPos (m : GraphicsMode) (w h c : Word) : (s.openPage m w h c).cmdPos = s.cmdPos :=
  rfl
@[simp] theorem State.openPage_pending (m : GraphicsMode) (w h c : Word) : (s.openPage m w h c).pending = s.pending :=
  rfl
@[simp] theorem State.openPage_input (m : GraphicsMode) (w h c : Word) : (s.openPage m w h c).input = s.input := rfl
@[simp] theorem State.openPage_replies (m : GraphicsMode) (w h c : Word) : (s.openPage m w h c).replies = s.replies :=
  rfl

/-! ## counting a line -/

@[simp] theorem State.countLine_session : (s.countLine).session = s.session := rfl
@[simp] theorem State.countLine_mode : (s.countLine).mode = s.mode := rfl
@[simp] theorem State.countLine_width : (s.countLine).width = s.width := rfl
@[simp] theorem State.countLine_height : (s.countLine).height = s.height := rfl
@[simp] theorem State.countLine_bpl : (s.countLine).bpl = s.bpl := rfl
@[simp] theorem State.countLine_cfg : (s.countLine).cfg = s.cfg := rfl
@[simp] theorem State.countLine_lineCnt : (s.countLine).lineCnt = s.lineCnt + 1 := rfl
@[simp] theorem State.countLine_cur : (s.countLine).cur = s.cur := rfl
@[simp] theorem State.countLine_mark : (s.countLine).mark = s.mark := rfl
@[simp] theorem State.countLine_cancelReq : (s.countLine).cancelReq = s.cancelReq := rfl
@[simp] theorem State.countLine_cancelLatch : (s.countLine).cancelLatch = s.cancelLatch := rfl
@[simp] theorem State.countLine_beginResult : (s.countLine).beginResult = s.beginResult := rfl
@[simp] theorem State.countLine_fault : (s.countLine).fault = s.fault := rfl
@[simp] theorem State.countLine_faultCode : (s.countLine).faultCode = s.faultCode := rfl
@[simp] theorem State.countLine_pageIdx : (s.countLine).pageIdx = s.pageIdx := rfl
@[simp] theorem State.countLine_line : (s.countLine).line = s.line := rfl
@[simp] theorem State.countLine_ref : (s.countLine).ref = s.ref := rfl
@[simp] theorem State.countLine_cb : (s.countLine).cb = s.cb := rfl
@[simp] theorem State.countLine_staging : (s.countLine).staging = s.staging := rfl
@[simp] theorem State.countLine_out : (s.countLine).out = s.out := rfl
@[simp] theorem State.countLine_cmdPos : (s.countLine).cmdPos = s.cmdPos := rfl
@[simp] theorem State.countLine_pending : (s.countLine).pending = s.pending := rfl
@[simp] theorem State.countLine_input : (s.countLine).input = s.input := rfl
@[simp] theorem State.countLine_replies : (s.countLine).replies = s.replies := rfl

/-! ## an answer on REG -/

@[simp] theorem State.reply_session (i : Nat) (v : Word) : (s.reply i v).session = s.session := rfl
@[simp] theorem State.reply_mode (i : Nat) (v : Word) : (s.reply i v).mode = s.mode := rfl
@[simp] theorem State.reply_width (i : Nat) (v : Word) : (s.reply i v).width = s.width := rfl
@[simp] theorem State.reply_height (i : Nat) (v : Word) : (s.reply i v).height = s.height := rfl
@[simp] theorem State.reply_bpl (i : Nat) (v : Word) : (s.reply i v).bpl = s.bpl := rfl
@[simp] theorem State.reply_cfg (i : Nat) (v : Word) : (s.reply i v).cfg = s.cfg := rfl
@[simp] theorem State.reply_lineCnt (i : Nat) (v : Word) : (s.reply i v).lineCnt = s.lineCnt := rfl
@[simp] theorem State.reply_cur (i : Nat) (v : Word) : (s.reply i v).cur = s.cur := rfl
@[simp] theorem State.reply_mark (i : Nat) (v : Word) : (s.reply i v).mark = s.mark := rfl
@[simp] theorem State.reply_cancelReq (i : Nat) (v : Word) : (s.reply i v).cancelReq = s.cancelReq := rfl
@[simp] theorem State.reply_cancelLatch (i : Nat) (v : Word) : (s.reply i v).cancelLatch = s.cancelLatch := rfl
@[simp] theorem State.reply_beginResult (i : Nat) (v : Word) : (s.reply i v).beginResult = s.beginResult := rfl
@[simp] theorem State.reply_fault (i : Nat) (v : Word) : (s.reply i v).fault = s.fault := rfl
@[simp] theorem State.reply_faultCode (i : Nat) (v : Word) : (s.reply i v).faultCode = s.faultCode := rfl
@[simp] theorem State.reply_pageIdx (i : Nat) (v : Word) : (s.reply i v).pageIdx = s.pageIdx := rfl
@[simp] theorem State.reply_line (i : Nat) (v : Word) : (s.reply i v).line = s.line := rfl
@[simp] theorem State.reply_ref (i : Nat) (v : Word) : (s.reply i v).ref = s.ref := rfl
@[simp] theorem State.reply_cb (i : Nat) (v : Word) : (s.reply i v).cb = s.cb := rfl
@[simp] theorem State.reply_staging (i : Nat) (v : Word) : (s.reply i v).staging = s.staging := rfl
@[simp] theorem State.reply_out (i : Nat) (v : Word) : (s.reply i v).out = s.out := rfl
@[simp] theorem State.reply_cmdPos (i : Nat) (v : Word) : (s.reply i v).cmdPos = s.cmdPos := rfl
@[simp] theorem State.reply_pending (i : Nat) (v : Word) : (s.reply i v).pending = s.pending := rfl
@[simp] theorem State.reply_input (i : Nat) (v : Word) : (s.reply i v).input = s.input := rfl
@[simp] theorem State.reply_replies (i : Nat) (v : Word) : (s.reply i v).replies = s.replies ++ [⟨i, v⟩] := rfl

/-! ## RESET -/

@[simp] theorem State.hardReset_session : (s.hardReset).session = State.reset.session := rfl
@[simp] theorem State.hardReset_mode : (s.hardReset).mode = State.reset.mode := rfl
@[simp] theorem State.hardReset_width : (s.hardReset).width = State.reset.width := rfl
@[simp] theorem State.hardReset_height : (s.hardReset).height = State.reset.height := rfl
@[simp] theorem State.hardReset_bpl : (s.hardReset).bpl = State.reset.bpl := rfl
@[simp] theorem State.hardReset_cfg : (s.hardReset).cfg = State.reset.cfg := rfl
@[simp] theorem State.hardReset_lineCnt : (s.hardReset).lineCnt = State.reset.lineCnt := rfl
@[simp] theorem State.hardReset_cur : (s.hardReset).cur = State.reset.cur := rfl
@[simp] theorem State.hardReset_mark : (s.hardReset).mark = State.reset.mark := rfl
@[simp] theorem State.hardReset_cancelReq : (s.hardReset).cancelReq = State.reset.cancelReq := rfl
@[simp] theorem State.hardReset_cancelLatch : (s.hardReset).cancelLatch = State.reset.cancelLatch := rfl
@[simp] theorem State.hardReset_beginResult : (s.hardReset).beginResult = State.reset.beginResult := rfl
@[simp] theorem State.hardReset_fault : (s.hardReset).fault = State.reset.fault := rfl
@[simp] theorem State.hardReset_faultCode : (s.hardReset).faultCode = State.reset.faultCode := rfl
@[simp] theorem State.hardReset_pageIdx : (s.hardReset).pageIdx = State.reset.pageIdx := rfl
@[simp] theorem State.hardReset_line : (s.hardReset).line = State.reset.line := rfl
@[simp] theorem State.hardReset_ref : (s.hardReset).ref = State.reset.ref := rfl
@[simp] theorem State.hardReset_cb : (s.hardReset).cb = State.reset.cb := rfl
@[simp] theorem State.hardReset_staging : (s.hardReset).staging = State.reset.staging := rfl
@[simp] theorem State.hardReset_out : (s.hardReset).out = s.out := rfl
@[simp] theorem State.hardReset_cmdPos : (s.hardReset).cmdPos = s.cmdPos + s.pending.length := rfl
@[simp] theorem State.hardReset_pending : (s.hardReset).pending = State.reset.pending := rfl
@[simp] theorem State.hardReset_input : (s.hardReset).input = s.input := rfl
@[simp] theorem State.hardReset_replies : (s.hardReset).replies = s.replies := rfl

/-! ## moving past a command's words -/

@[simp] theorem State.consume_session (got left : List Word) : (s.consume got left).session = s.session := rfl
@[simp] theorem State.consume_mode (got left : List Word) : (s.consume got left).mode = s.mode := rfl
@[simp] theorem State.consume_width (got left : List Word) : (s.consume got left).width = s.width := rfl
@[simp] theorem State.consume_height (got left : List Word) : (s.consume got left).height = s.height := rfl
@[simp] theorem State.consume_bpl (got left : List Word) : (s.consume got left).bpl = s.bpl := rfl
@[simp] theorem State.consume_cfg (got left : List Word) : (s.consume got left).cfg = s.cfg := rfl
@[simp] theorem State.consume_lineCnt (got left : List Word) : (s.consume got left).lineCnt = s.lineCnt := rfl
@[simp] theorem State.consume_cur (got left : List Word) : (s.consume got left).cur = s.cur := rfl
@[simp] theorem State.consume_mark (got left : List Word) : (s.consume got left).mark = s.mark := rfl
@[simp] theorem State.consume_cancelReq (got left : List Word) : (s.consume got left).cancelReq = s.cancelReq := rfl
@[simp] theorem State.consume_cancelLatch (got left : List Word) : (s.consume got left).cancelLatch = s.cancelLatch :=
  rfl
@[simp] theorem State.consume_beginResult (got left : List Word) : (s.consume got left).beginResult = s.beginResult :=
  rfl
@[simp] theorem State.consume_fault (got left : List Word) : (s.consume got left).fault = s.fault := rfl
@[simp] theorem State.consume_faultCode (got left : List Word) : (s.consume got left).faultCode = s.faultCode := rfl
@[simp] theorem State.consume_pageIdx (got left : List Word) : (s.consume got left).pageIdx = s.pageIdx := rfl
@[simp] theorem State.consume_line (got left : List Word) : (s.consume got left).line = s.line := rfl
@[simp] theorem State.consume_ref (got left : List Word) : (s.consume got left).ref = s.ref := rfl
@[simp] theorem State.consume_cb (got left : List Word) : (s.consume got left).cb = s.cb := rfl
@[simp] theorem State.consume_staging (got left : List Word) : (s.consume got left).staging = s.staging := rfl
@[simp] theorem State.consume_out (got left : List Word) : (s.consume got left).out = s.out := rfl
@[simp] theorem State.consume_cmdPos (got left : List Word) : (s.consume got left).cmdPos = s.cmdPos + (got.length - left.length) :=
  rfl
@[simp] theorem State.consume_pending (got left : List Word) : (s.consume got left).pending = left := rfl
@[simp] theorem State.consume_input (got left : List Word) : (s.consume got left).input = s.input := rfl
@[simp] theorem State.consume_replies (got left : List Word) : (s.consume got left).replies = s.replies := rfl

/-! ## sampling CANCEL_REQ -/

@[simp] theorem State.sampleCancel_session : (s.sampleCancel).session = if s.cancelReq then .canceling else s.session := by
  unfold State.sampleCancel; split <;> simp_all
@[simp] theorem State.sampleCancel_mode : (s.sampleCancel).mode = s.mode := by
  unfold State.sampleCancel; split <;> rfl
@[simp] theorem State.sampleCancel_width : (s.sampleCancel).width = s.width := by
  unfold State.sampleCancel; split <;> rfl
@[simp] theorem State.sampleCancel_height : (s.sampleCancel).height = s.height := by
  unfold State.sampleCancel; split <;> rfl
@[simp] theorem State.sampleCancel_bpl : (s.sampleCancel).bpl = s.bpl := by
  unfold State.sampleCancel; split <;> rfl
@[simp] theorem State.sampleCancel_cfg : (s.sampleCancel).cfg = s.cfg := by
  unfold State.sampleCancel; split <;> rfl
@[simp] theorem State.sampleCancel_lineCnt : (s.sampleCancel).lineCnt = s.lineCnt := by
  unfold State.sampleCancel; split <;> rfl
@[simp] theorem State.sampleCancel_cur : (s.sampleCancel).cur = s.cur := by
  unfold State.sampleCancel; split <;> rfl
@[simp] theorem State.sampleCancel_mark : (s.sampleCancel).mark = s.mark := by
  unfold State.sampleCancel; split <;> rfl
@[simp] theorem State.sampleCancel_cancelReq : (s.sampleCancel).cancelReq = s.cancelReq := by
  unfold State.sampleCancel; split <;> rfl
@[simp] theorem State.sampleCancel_cancelLatch : (s.sampleCancel).cancelLatch = s.cancelLatch := by
  unfold State.sampleCancel; split <;> rfl
@[simp] theorem State.sampleCancel_beginResult : (s.sampleCancel).beginResult = s.beginResult := by
  unfold State.sampleCancel; split <;> rfl
@[simp] theorem State.sampleCancel_fault : (s.sampleCancel).fault = s.fault := by
  unfold State.sampleCancel; split <;> rfl
@[simp] theorem State.sampleCancel_faultCode : (s.sampleCancel).faultCode = s.faultCode := by
  unfold State.sampleCancel; split <;> rfl
@[simp] theorem State.sampleCancel_pageIdx : (s.sampleCancel).pageIdx = s.pageIdx := by
  unfold State.sampleCancel; split <;> rfl
@[simp] theorem State.sampleCancel_line : (s.sampleCancel).line = s.line := by
  unfold State.sampleCancel; split <;> rfl
@[simp] theorem State.sampleCancel_ref : (s.sampleCancel).ref = s.ref := by
  unfold State.sampleCancel; split <;> rfl
@[simp] theorem State.sampleCancel_cb : (s.sampleCancel).cb = s.cb := by
  unfold State.sampleCancel; split <;> rfl
@[simp] theorem State.sampleCancel_staging : (s.sampleCancel).staging = s.staging := by
  unfold State.sampleCancel; split <;> rfl
@[simp] theorem State.sampleCancel_out : (s.sampleCancel).out = s.out := by
  unfold State.sampleCancel; split <;> rfl
@[simp] theorem State.sampleCancel_cmdPos : (s.sampleCancel).cmdPos = s.cmdPos := by
  unfold State.sampleCancel; split <;> rfl
@[simp] theorem State.sampleCancel_pending : (s.sampleCancel).pending = s.pending := by
  unfold State.sampleCancel; split <;> rfl
@[simp] theorem State.sampleCancel_input : (s.sampleCancel).input = s.input := by
  unfold State.sampleCancel; split <;> rfl
@[simp] theorem State.sampleCancel_replies : (s.sampleCancel).replies = s.replies := by
  unfold State.sampleCancel; split <;> rfl

/-! ## the end of END_PAGE -/

@[simp] theorem State.closePage_session : (s.closePage).session = .idle := by
  unfold State.closePage; split <;> rfl
@[simp] theorem State.closePage_mode : (s.closePage).mode = s.mode := by
  unfold State.closePage; split <;> rfl
@[simp] theorem State.closePage_width : (s.closePage).width = s.width := by
  unfold State.closePage; split <;> rfl
@[simp] theorem State.closePage_height : (s.closePage).height = s.height := by
  unfold State.closePage; split <;> rfl
@[simp] theorem State.closePage_bpl : (s.closePage).bpl = s.bpl := by
  unfold State.closePage; split <;> rfl
@[simp] theorem State.closePage_cfg : (s.closePage).cfg = s.cfg := by
  unfold State.closePage; split <;> rfl
@[simp] theorem State.closePage_lineCnt : (s.closePage).lineCnt = s.lineCnt := by
  unfold State.closePage; split <;> rfl
@[simp] theorem State.closePage_cur : (s.closePage).cur = s.cur := by
  unfold State.closePage; split <;> rfl
@[simp] theorem State.closePage_mark : (s.closePage).mark = s.mark := by
  unfold State.closePage; split <;> rfl
@[simp] theorem State.closePage_cancelReq : (s.closePage).cancelReq = false := by
  unfold State.closePage; split <;> simp_all
@[simp] theorem State.closePage_cancelLatch : (s.closePage).cancelLatch = decide (s.session = .canceling) || s.cancelLatch := by
  unfold State.closePage; split <;> simp_all
@[simp] theorem State.closePage_beginResult : (s.closePage).beginResult = s.beginResult := by
  unfold State.closePage; split <;> rfl
@[simp] theorem State.closePage_fault : (s.closePage).fault = s.fault := by
  unfold State.closePage; split <;> rfl
@[simp] theorem State.closePage_faultCode : (s.closePage).faultCode = s.faultCode := by
  unfold State.closePage; split <;> rfl
@[simp] theorem State.closePage_pageIdx : (s.closePage).pageIdx = s.pageIdx := by
  unfold State.closePage; split <;> rfl
@[simp] theorem State.closePage_line : (s.closePage).line = s.line := by
  unfold State.closePage; split <;> rfl
@[simp] theorem State.closePage_ref : (s.closePage).ref = s.ref := by
  unfold State.closePage; split <;> rfl
@[simp] theorem State.closePage_cb : (s.closePage).cb = s.cb := by
  unfold State.closePage; split <;> rfl
@[simp] theorem State.closePage_staging : (s.closePage).staging = s.staging := by
  unfold State.closePage; split <;> rfl
@[simp] theorem State.closePage_out : (s.closePage).out = s.out ++ [if s.session = .canceling then .deviceReset else .trailer s.cfg s.mode] := by
  unfold State.closePage; split <;> simp_all
@[simp] theorem State.closePage_cmdPos : (s.closePage).cmdPos = s.cmdPos := by
  unfold State.closePage; split <;> rfl
@[simp] theorem State.closePage_pending : (s.closePage).pending = s.pending := by
  unfold State.closePage; split <;> rfl
@[simp] theorem State.closePage_input : (s.closePage).input = s.input := by
  unfold State.closePage; split <;> rfl
@[simp] theorem State.closePage_replies : (s.closePage).replies = s.replies := by
  unfold State.closePage; split <;> rfl

/-! ## replacing a memory -/

@[simp] theorem State.setMemory_session (id : MemId) (m : Memory) : (s.setMemory id m).session = s.session := by
  cases id <;> rfl
@[simp] theorem State.setMemory_mode (id : MemId) (m : Memory) : (s.setMemory id m).mode = s.mode := by
  cases id <;> rfl
@[simp] theorem State.setMemory_width (id : MemId) (m : Memory) : (s.setMemory id m).width = s.width := by
  cases id <;> rfl
@[simp] theorem State.setMemory_height (id : MemId) (m : Memory) : (s.setMemory id m).height = s.height := by
  cases id <;> rfl
@[simp] theorem State.setMemory_bpl (id : MemId) (m : Memory) : (s.setMemory id m).bpl = s.bpl := by
  cases id <;> rfl
@[simp] theorem State.setMemory_cfg (id : MemId) (m : Memory) : (s.setMemory id m).cfg = s.cfg := by
  cases id <;> rfl
@[simp] theorem State.setMemory_lineCnt (id : MemId) (m : Memory) : (s.setMemory id m).lineCnt = s.lineCnt := by
  cases id <;> rfl
@[simp] theorem State.setMemory_cur (id : MemId) (m : Memory) : (s.setMemory id m).cur = s.cur := by
  cases id <;> rfl
@[simp] theorem State.setMemory_mark (id : MemId) (m : Memory) : (s.setMemory id m).mark = s.mark := by
  cases id <;> rfl
@[simp] theorem State.setMemory_cancelReq (id : MemId) (m : Memory) : (s.setMemory id m).cancelReq = s.cancelReq := by
  cases id <;> rfl
@[simp] theorem State.setMemory_cancelLatch (id : MemId) (m : Memory) : (s.setMemory id m).cancelLatch = s.cancelLatch := by
  cases id <;> rfl
@[simp] theorem State.setMemory_beginResult (id : MemId) (m : Memory) : (s.setMemory id m).beginResult = s.beginResult := by
  cases id <;> rfl
@[simp] theorem State.setMemory_fault (id : MemId) (m : Memory) : (s.setMemory id m).fault = s.fault := by
  cases id <;> rfl
@[simp] theorem State.setMemory_faultCode (id : MemId) (m : Memory) : (s.setMemory id m).faultCode = s.faultCode := by
  cases id <;> rfl
@[simp] theorem State.setMemory_pageIdx (id : MemId) (m : Memory) : (s.setMemory id m).pageIdx = s.pageIdx := by
  cases id <;> rfl
@[simp] theorem State.setMemory_line (id : MemId) (m : Memory) :
    (s.setMemory id m).line = if id = .line then m else s.line := by
  cases id <;> rfl
@[simp] theorem State.setMemory_ref (id : MemId) (m : Memory) :
    (s.setMemory id m).ref = if id = .ref then m else s.ref := by
  cases id <;> rfl
@[simp] theorem State.setMemory_cb (id : MemId) (m : Memory) :
    (s.setMemory id m).cb = if id = .cb then m else s.cb := by
  cases id <;> rfl
@[simp] theorem State.setMemory_staging (id : MemId) (m : Memory) : (s.setMemory id m).staging = s.staging := by
  cases id <;> rfl
@[simp] theorem State.setMemory_out (id : MemId) (m : Memory) : (s.setMemory id m).out = s.out := by
  cases id <;> rfl
@[simp] theorem State.setMemory_cmdPos (id : MemId) (m : Memory) : (s.setMemory id m).cmdPos = s.cmdPos := by
  cases id <;> rfl
@[simp] theorem State.setMemory_pending (id : MemId) (m : Memory) : (s.setMemory id m).pending = s.pending := by
  cases id <;> rfl
@[simp] theorem State.setMemory_input (id : MemId) (m : Memory) : (s.setMemory id m).input = s.input := by
  cases id <;> rfl
@[simp] theorem State.setMemory_replies (id : MemId) (m : Memory) : (s.setMemory id m).replies = s.replies := by
  cases id <;> rfl

end Sys2Proof.Machine
end

