-- ==== Sys2Proof/Laws/Memory.lean ====
section
/-! SUPPORT. The laws of the byte memories: what a read sees after a store, what a load answers, and that a store keeps
the canonical form. -/

namespace Sys2Proof.Machine

/-! ## Reads and stores -/

theorem Memory.read_append (m n : Memory) (x : Nat) :
    Memory.read (m ++ n) x = (Memory.read m x).or (Memory.read n x) := by
  induction m with
  | nil => simp [Memory.read]
  | cons c m ih =>
    obtain ⟨k, b⟩ := c
    by_cases h : k = x <;> simp [Memory.read, h, ih]

theorem Memory.read_filter (m : Memory) (p : Nat → Bool) (x : Nat) :
    Memory.read (m.filter fun c => p c.1) x = if p x then Memory.read m x else none := by
  induction m with
  | nil => simp [Memory.read]
  | cons c m ih =>
    obtain ⟨k, b⟩ := c
    by_cases hk : p k = true
    · by_cases h : k = x
      · subst h; simp [Memory.read, hk]
      · simp [Memory.read, hk, h, ih]
    · by_cases h : k = x
      · subst h; simp [hk, ih]
      · simp [Memory.read, hk, h, ih]

theorem Memory.read_cells (bs : List Byte) (a x : Nat) :
    Memory.read (Memory.cells a bs) x = if a ≤ x then bs[x - a]? else none := by
  induction bs generalizing a with
  | nil => simp [Memory.cells, Memory.read]
  | cons b bs ih =>
    rw [Memory.cells, Memory.read, ih]
    by_cases h : a = x
    · subst h; simp
    · by_cases h' : a ≤ x
      · have e : x - a = (x - (a + 1)) + 1 := by omega
        rw [if_neg h, if_pos (by omega), if_pos h', e, List.getElem?_cons_succ]
      · rw [if_neg h, if_neg (by omega), if_neg h']

/-- A read after a store: the stored byte inside the stored range, and what was there outside it. -/
theorem Memory.read_store (m : Memory) (a : Nat) (bs : List Byte) (x : Nat) :
    (m.store a bs).read x = if a ≤ x ∧ x < a + bs.length then bs[x - a]? else m.read x := by
  have h1 := Memory.read_filter m (fun k => decide (k < a)) x
  have h2 := Memory.read_filter m (fun k => decide (a + bs.length ≤ k)) x
  rw [Memory.store, Memory.read_append, Memory.read_append, h1, h2, Memory.read_cells]
  by_cases hx : x < a
  · have : ¬ a ≤ x := by omega
    have : ¬ a + bs.length ≤ x := by omega
    simp [*]
  · by_cases hy : x < a + bs.length
    · have e : x - a < bs.length := by omega
      have h3 : a ≤ x := by omega
      simp [hx, hy, h3, List.getElem?_eq_getElem e]
    · have h3 : a ≤ x := by omega
      have h4 : a + bs.length ≤ x := by omega
      have e : bs.length ≤ x - a := by omega
      simp [hx, hy, h3, h4, List.getElem?_eq_none e]

/-- A stored byte sequence is there. -/
theorem Memory.holds_store (m : Memory) (a : Nat) (bs : List Byte) : Holds (m.store a bs) a bs := by
  intro j hj
  rw [Memory.read_store, if_pos (by omega), Nat.add_sub_cancel_left]

/-- A read outside the stored range. -/
theorem Memory.read_store_outside {m : Memory} {a x : Nat} {bs : List Byte} (h : x < a ∨ a + bs.length ≤ x) :
    (m.store a bs).read x = m.read x := by
  rw [Memory.read_store, if_neg (by omega)]

/-! ## The canonical form -/

theorem Memory.wfFrom_iff (m : Memory) (lo : Nat) :
    Memory.wfFrom lo m = true ↔ (∀ c ∈ m, lo ≤ c.1) ∧ m.Pairwise fun x y => x.1 < y.1 := by
  induction m generalizing lo with
  | nil => simp [Memory.wfFrom]
  | cons c m ih =>
    obtain ⟨k, b⟩ := c
    rw [Memory.wfFrom, Bool.and_eq_true, ih, decide_eq_true_eq, List.pairwise_cons]
    constructor
    · rintro ⟨h, hm, hp⟩
      refine ⟨?_, fun y hy => hm y hy, hp⟩
      intro y hy
      rcases List.mem_cons.1 hy with rfl | hy
      · exact h
      · exact le_trans (by omega) (hm y hy)
    · rintro ⟨h, hm, hp⟩
      exact ⟨h (k, b) (by simp), fun y hy => hm y hy, hp⟩

/-- The canonical form is: addresses strictly rising. -/
theorem Memory.wf_iff (m : Memory) : m.wf = true ↔ m.Pairwise fun x y => x.1 < y.1 := by
  simp [Memory.wf, Memory.wfFrom_iff]

theorem Memory.mem_cells {bs : List Byte} {a : Nat} {c : Host.Cell} (h : c ∈ Memory.cells a bs) :
    a ≤ c.1 ∧ c.1 < a + bs.length := by
  induction bs generalizing a with
  | nil => simp [Memory.cells] at h
  | cons b bs ih =>
    rw [Memory.cells, List.mem_cons] at h
    rcases h with rfl | h
    · simp
    · have := ih h
      simp only [List.length_cons]
      omega

theorem Memory.pairwise_cells (bs : List Byte) (a : Nat) :
    (Memory.cells a bs).Pairwise fun x y => x.1 < y.1 := by
  induction bs generalizing a with
  | nil => simp [Memory.cells]
  | cons b bs ih =>
    rw [Memory.cells, List.pairwise_cons]
    exact ⟨fun y hy => (Memory.mem_cells hy).1, ih (a + 1)⟩

/-- A store keeps the canonical form: it is the one operation that writes a memory. -/
theorem Memory.wf_store {m : Memory} (h : m.wf = true) (a : Nat) (bs : List Byte) : (m.store a bs).wf = true := by
  rw [Memory.wf_iff] at h ⊢
  rw [Memory.store, List.pairwise_append, List.pairwise_append]
  refine ⟨⟨h.filter _, Memory.pairwise_cells bs a, ?_⟩, h.filter _, ?_⟩
  · intro x hx y hy
    have := (Memory.mem_cells hy).1
    simp only [List.mem_filter, decide_eq_true_eq] at hx
    omega
  · intro x hx y hy
    simp only [List.mem_append, List.mem_filter, decide_eq_true_eq] at hx hy
    rcases hx with hx | hx
    · omega
    · have := (Memory.mem_cells hx).2
      omega

/-- Storing nothing in a canonical memory leaves it as it was. -/
theorem Memory.store_nil {m : Memory} (h : m.wf = true) (a : Nat) : m.store a [] = m := by
  rw [Memory.wf_iff] at h
  simp only [Memory.store, Memory.cells, List.append_nil, List.length_nil, Nat.add_zero]
  induction m with
  | nil => rfl
  | cons c m ih =>
    rw [List.pairwise_cons] at h
    by_cases hc : c.1 < a
    · have : ¬ a ≤ c.1 := by omega
      simp [hc, this, ih h.2]
    · have hge : a ≤ c.1 := by omega
      have hall : ∀ y ∈ m, a ≤ y.1 := fun y hy => le_of_lt (lt_of_le_of_lt hge (h.1 y hy))
      have e1 : m.filter (fun c => decide (c.1 < a)) = [] := by
        simp only [List.filter_eq_nil_iff, decide_eq_true_eq]
        exact fun y hy => by have := hall y hy; omega
      have e2 : m.filter (fun c => decide (a ≤ c.1)) = m := by
        simp only [List.filter_eq_self, decide_eq_true_eq]
        exact hall
      simp [hc, hge, e1, e2]

/-- Storing a byte and then more bytes after it is storing them all. -/
theorem Memory.store_cons (m : Memory) (a : Nat) (b : Byte) (bs : List Byte) :
    (m.store a [b]).store (a + 1) bs = m.store a (b :: bs) := by
  have e1 : (m.store a [b]).filter (fun c => decide (c.1 < a + 1)) =
      m.filter (fun c => decide (c.1 < a)) ++ [(a, b)] := by
    have h1 : (m.filter fun c => decide (c.1 < a)).filter (fun c => decide (c.1 < a + 1)) =
        m.filter fun c => decide (c.1 < a) := by
      rw [List.filter_filter]
      exact List.filter_congr fun c _ => by
        by_cases h : c.1 < a
        · have : c.1 < a + 1 := by omega
          simp [h, this]
        · simp [h]
    have h2 : (m.filter fun c => decide (a + 1 ≤ c.1)).filter (fun c => decide (c.1 < a + 1)) = [] := by
      rw [List.filter_filter, List.filter_eq_nil_iff]
      intro c _ hc
      simp only [Bool.and_eq_true, decide_eq_true_eq] at hc
      omega
    rw [Memory.store, List.filter_append, List.filter_append, h1, show a + [b].length = a + 1 from rfl, h2]
    simp [Memory.cells]
  have e2 : (m.store a [b]).filter (fun c => decide (a + 1 + bs.length ≤ c.1)) =
      m.filter fun c => decide (a + (b :: bs).length ≤ c.1) := by
    have h1 : (m.filter fun c => decide (c.1 < a)).filter (fun c => decide (a + 1 + bs.length ≤ c.1)) = [] := by
      rw [List.filter_filter, List.filter_eq_nil_iff]
      intro c _ hc
      simp only [Bool.and_eq_true, decide_eq_true_eq] at hc
      omega
    have h2 : (m.filter fun c => decide (a + 1 ≤ c.1)).filter (fun c => decide (a + 1 + bs.length ≤ c.1)) =
        m.filter fun c => decide (a + (b :: bs).length ≤ c.1) := by
      rw [List.filter_filter]
      exact List.filter_congr fun c _ => by
        simp only [List.length_cons, ← Bool.decide_and, decide_eq_decide]
        omega
    have h3 : ¬ (a + 1 + bs.length ≤ a) := by omega
    rw [Memory.store, List.filter_append, List.filter_append, h1, show a + [b].length = a + 1 from rfl, h2]
    simp [Memory.cells, h3]
  rw [Memory.store, e1, e2]
  simp [Memory.store, Memory.cells]

/-! ## Loads -/

theorem Memory.loadFrom_ok_iff (m : Memory) (a n : Nat) (bs : List Byte) :
    m.loadFrom a n = .ok bs ↔ bs.length = n ∧ Holds m a bs := by
  induction n generalizing a bs with
  | zero =>
    simp only [Memory.loadFrom, Except.ok.injEq]
    constructor
    · rintro rfl; exact ⟨rfl, fun j hj => absurd hj (by simp)⟩
    · rintro ⟨h, -⟩; exact (List.length_eq_zero_iff.1 h).symm
  | succ n ih =>
    rw [Memory.loadFrom]
    constructor
    · intro h
      split at h
      · cases h
      · rename_i b hb
        split at h
        · rename_i cs hcs
          cases h
          obtain ⟨hl, hh⟩ := (ih _ _).1 hcs
          refine ⟨by simp [hl], ?_⟩
          intro j hj
          cases j with
          | zero => simpa using hb
          | succ j =>
            have := hh j (by simpa using hj)
            rw [List.getElem?_cons_succ, ← this]
            congr 1; omega
        · cases h
    · rintro ⟨hl, hh⟩
      cases bs with
      | nil => simp at hl
      | cons b cs =>
        have h0 : m.read a = some b := by simpa using hh 0 (by simp)
        have hr : m.loadFrom (a + 1) n = .ok cs := by
          refine (ih _ _).2 ⟨by simpa using hl, ?_⟩
          intro j hj
          have := hh (j + 1) (by simpa using hj)
          rw [List.getElem?_cons_succ] at this
          rw [← this]; congr 1; omega
        rw [h0, hr]

theorem Memory.scan_sound (m : Memory) (a n : Nat) (bs : List Byte) (h : m.scan a n = some bs) :
    bs.length = n ∧ ∀ j, j < n → m.read (a + j) = bs[j]? := by
  induction n generalizing m a bs with
  | zero =>
    simp only [Memory.scan, Option.some.injEq] at h
    subst h; exact ⟨rfl, fun j hj => absurd hj (by omega)⟩
  | succ n ih =>
    match m with
    | [] => simp [Memory.scan] at h
    | (k, b) :: m =>
      rw [Memory.scan] at h
      split at h
      · rename_i hk
        subst hk
        rw [Option.map_eq_some_iff] at h
        obtain ⟨cs, hcs, rfl⟩ := h
        obtain ⟨hl, hr⟩ := ih m (k + 1) cs hcs
        refine ⟨by simp [hl], ?_⟩
        intro j hj
        cases j with
        | zero => simp [Memory.read]
        | succ j =>
          have := hr j (by omega)
          have hne : ¬ k = k + (j + 1) := by omega
          rw [Memory.read, if_neg hne, List.getElem?_cons_succ, ← this]
          congr 1; omega
      · cases h

/-- A load answers each byte of 0 to `n - 1` as a one-byte read does, exactly when all of them have a value. -/
theorem Memory.load_ok_iff (m : Memory) (n : Nat) (bs : List Byte) :
    m.load n = .ok bs ↔ bs.length = n ∧ Holds m 0 bs := by
  have key := Memory.loadFrom_ok_iff m 0 n
  rw [Memory.load]
  split
  · rename_i cs hcs
    obtain ⟨hl, hr⟩ := Memory.scan_sound m 0 n cs hcs
    have h1 : m.loadFrom 0 n = .ok cs := (key cs).2 ⟨hl, fun j hj => hr j (by omega)⟩
    rw [← h1]; exact key bs
  · exact key bs

/-- The load is the byte-by-byte one. -/
theorem Memory.load_eq_loadFrom (m : Memory) (n : Nat) : m.load n = m.loadFrom 0 n := by
  rw [Memory.load]
  split
  · rename_i cs hcs
    obtain ⟨hl, hr⟩ := Memory.scan_sound m 0 n cs hcs
    exact ((Memory.loadFrom_ok_iff m 0 n cs).2 ⟨hl, fun j hj => hr j (by omega)⟩).symm
  · rfl

/-- A memory that has a value at every address below `n` holds some byte sequence there. -/
theorem Memory.exists_holds {m : Memory} {n : Nat} (h : ∀ a, a < n → (m.read a).isSome) :
    ∃ bs : List Byte, bs.length = n ∧ Holds m 0 bs := by
  refine ⟨(List.range n).map fun a => (m.read a).getD 0, by simp, ?_⟩
  intro j hj
  have hj' : j < n := by simpa using hj
  obtain ⟨b, hb⟩ := Option.isSome_iff_exists.1 (h j hj')
  simp [hb, hj']

/-- What a memory holds is determined by its length. -/
theorem Holds.unique {m : Memory} {a : Nat} {bs cs : List Byte} (hb : Holds m a bs) (hc : Holds m a cs)
    (hl : bs.length = cs.length) : bs = cs := by
  refine List.ext_getElem? fun j => ?_
  by_cases hj : j < bs.length
  · rw [← hb j hj, hc j (hl ▸ hj)]
  · rw [List.getElem?_eq_none (by omega), List.getElem?_eq_none (by omega)]

/-! ## Memories of the block -/

/-- A load of a memory of the block. -/
theorem State.loadMem_ok_iff (s : State) (id : MemId) (n : Nat) (bs : List Byte) :
    s.loadMem id n = .ok bs ↔ n ≤ id.size ∧ bs.length = n ∧ Holds (s.memory id) 0 bs := by
  rw [State.loadMem, ← Memory.load_ok_iff]
  split
  · rename_i h
    exact ⟨fun h' => (by cases h'), fun h' => absurd h'.1 (by omega)⟩
  · rename_i h
    cases hl : (s.memory id).load n with
    | ok cs => simp only [Except.ok.injEq]; exact ⟨fun e => ⟨by omega, e⟩, fun e => e.2⟩
    | error e => simp

/-- A store to a memory of the block. -/
theorem State.storeMem_ok_iff (s t : State) (id : MemId) (bs : List Byte) :
    s.storeMem id bs = .ok t ↔ bs.length ≤ id.size ∧ t = s.setMemory id ((s.memory id).store 0 bs) := by
  rw [State.storeMem]
  split
  · rename_i h
    exact ⟨fun h' => (by cases h'), fun h' => absurd h'.1 (by omega)⟩
  · rename_i h
    simp only [Except.ok.injEq]
    exact ⟨fun e => ⟨by omega, e.symm⟩, fun e => e.2.symm⟩

/-- A memory of the block after a memory is replaced. -/
theorem State.memory_setMemory (s : State) (id id' : MemId) (m : Memory) :
    (s.setMemory id m).memory id' = if id = id' then m else s.memory id' := by
  cases id <;> cases id' <;> rfl

/-- The memories of State.reset are in canonical form. -/
theorem State.reset_memories_wf :
    State.reset.line.wf = true ∧ State.reset.ref.wf = true ∧ State.reset.cb.wf = true := by decide

end Sys2Proof.Machine
end

