-- ==== Sys2Proof/Laws/Ops.lean ====
section
/-! SUPPORT. One law per shared operation: what it does if it answers (the pre-check, the flush, the append, a
SparseDelta line, taking words, commands and events). -/

namespace Sys2Proof.Machine

/-! ## Progress -/

@[simp] theorem Progress.andThen_done (s : State) (f : State → Progress) : (Progress.done s).andThen f = f s := rfl
@[simp] theorem Progress.andThen_capacity (s : State) (f : State → Progress) :
    (Progress.capacity s).andThen f = .capacity s := rfl
@[simp] theorem Progress.andThen_stopped (r : Fault) (f : State → Progress) :
    (Progress.stopped r).andThen f = .stopped r := rfl
@[simp] theorem Progress.outcome_done (s : State) : (Progress.done s).outcome = .next s := rfl
@[simp] theorem Progress.outcome_capacity (s : State) :
    (Progress.capacity s).outcome = .next (s.recordFault .capacity) := rfl
@[simp] theorem Progress.outcome_stopped (r : Fault) : (Progress.stopped r).outcome = .fault r := rfl

/-- How a sequence of two steps gets done. -/
theorem Progress.andThen_eq_done {p : Progress} {f : State → Progress} {t : State} :
    p.andThen f = .done t ↔ ∃ u, p = .done u ∧ f u = .done t := by
  cases p <;> simp

/-- How a sequence of two steps ends by CAPACITY. -/
theorem Progress.andThen_eq_capacity {p : Progress} {f : State → Progress} {t : State} :
    p.andThen f = .capacity t ↔ p = .capacity t ∨ ∃ u, p = .done u ∧ f u = .capacity t := by
  cases p <;> simp

/-- When the outcome is a next state. -/
theorem Progress.outcome_eq_next {p : Progress} {t : State} :
    p.outcome = .next t ↔ p = .done t ∨ ∃ u, p = .capacity u ∧ t = u.recordFault .capacity := by
  cases p <;> simp [eq_comm]

/-! ## The framer -/

/-- A flush done: nothing on an empty buffer; else one frame of what CB holds below CUR, CUR 0 and MARK `k`. -/
theorem State.flush_done_iff (s t : State) (k : Word) :
    s.flush k = .done t ↔
      (s.cur = 0 ∧ t = s) ∨
      (s.cur ≠ 0 ∧ ∃ payload : List Byte, payload.length = s.cur.toNat ∧ Holds s.cb 0 payload ∧
        t = { s.emit (frameItems s.mark s.width s.bpl s.cur payload) with cur := 0, mark := k }) := by
  have hsize : s.cur.toNat ≤ MemId.cb.size := by
    have := s.cur.isLt
    simp only [MemId.size, Config.cbCap]; omega
  rw [State.flush]
  by_cases h0 : s.cur = 0
  · simp [h0, eq_comm]
  · simp only [h0, if_false, not_false_eq_true, true_and, false_and, false_or, ne_eq]
    constructor
    · intro h
      split at h
      · cases h
      · rename_i payload hp
        obtain ⟨-, hl, hh⟩ := (State.loadMem_ok_iff _ _ _ _).1 hp
        exact ⟨payload, hl, hh, by cases h; rfl⟩
    · rintro ⟨payload, hl, hh, rfl⟩
      have hp := (State.loadMem_ok_iff s .cb s.cur.toNat payload).2 ⟨hsize, hl, hh⟩
      rw [hp]

/-- A flush never ends by CAPACITY. -/
theorem State.flush_ne_capacity (s t : State) (k : Word) : s.flush k ≠ .capacity t := by
  rw [State.flush]
  split
  · simp
  · split <;> simp

/-- A pre-check done: either the worst case fits and nothing happens, or the flush is done. -/
theorem State.preCheck_done_iff (s t : State) (n : Nat) (k : Word) :
    s.preCheck n k = .done t ↔
      (worstCase n ≤ s.room ∧ t = s) ∨ (s.room < worstCase n ∧ s.flush k = .done t) := by
  rw [State.preCheck]
  by_cases h : s.room < worstCase n
  · simp [h, Nat.not_le.2 h]
  · simp [h, Nat.not_lt.1 h, eq_comm]

/-- A pre-check never ends by CAPACITY. -/
theorem State.preCheck_ne_capacity (s t : State) (n : Nat) (k : Word) : s.preCheck n k ≠ .capacity t := by
  rw [State.preCheck]
  split
  · exact State.flush_ne_capacity s t k
  · simp

/-- The room left, from CUR. -/
theorem State.room_eq (s : State) : s.room = 65535 - s.cur.toNat := rfl

/-- An append done: all bytes fit, and stand in CB from CUR on. -/
theorem State.appendBytes_done_iff (s t : State) (bs : List Byte) :
    s.appendBytes bs = .done t ↔
      bs.length ≤ s.room ∧
      t = { s with cb := s.cb.store s.cur.toNat bs, cur := s.cur + BitVec.ofNat 16 bs.length } := by
  simp only [State.appendBytes]
  by_cases h : bs.length ≤ s.room
  · simp [h, List.take_of_length_le h, eq_comm]
  · simp [h]

/-- An append ended by CAPACITY: the bytes that fit are kept, and CUR is 65 535. -/
theorem State.appendBytes_capacity_iff (s t : State) (bs : List Byte) :
    s.appendBytes bs = .capacity t ↔
      s.room < bs.length ∧
      t = { s with
        cb := s.cb.store s.cur.toNat (bs.take s.room), cur := s.cur + BitVec.ofNat 16 (bs.take s.room).length } := by
  simp only [State.appendBytes]
  by_cases h : bs.length ≤ s.room
  · simp [h]
  · simp [h, Nat.not_le.1 h, eq_comm]

/-- An append is never stopped by the model. -/
theorem State.appendBytes_ne_stopped (s : State) (bs : List Byte) (r : Fault) : s.appendBytes bs ≠ .stopped r := by
  simp only [State.appendBytes]
  split <;> simp

/-- CUR after bytes that fit. -/
theorem State.cur_add (s : State) {n : Nat} (h : n ≤ s.room) : (s.cur + BitVec.ofNat 16 n).toNat = s.cur.toNat + n := by
  have hc := s.cur.isLt
  rw [State.room_eq] at h
  rw [BitVec.toNat_add, BitVec.toNat_ofNat]
  omega

/-! ## The codec -/

/-- The part of a SparseDelta line after the pre-check, done: LINE and REF are loaded, the walk of their delta fits and
is appended, and REF takes the line. -/
theorem State.encodeDelta_done_iff (s t : State) (n : Nat) :
    s.encodeDelta n = .done t ↔
      n ≤ 512 ∧ ∃ line ref : List Byte, line.length = n ∧ ref.length = n ∧ Holds s.line 0 line ∧ Holds s.ref 0 ref ∧
        (Staging.ofDelta (deltaOf line ref)).walk.length ≤ s.room ∧
        t = { s with
          staging := Staging.ofDelta (deltaOf line ref),
          cb := s.cb.store s.cur.toNat (Staging.ofDelta (deltaOf line ref)).walk,
          cur := s.cur + BitVec.ofNat 16 (Staging.ofDelta (deltaOf line ref)).walk.length,
          ref := s.ref.store 0 line } := by
  simp only [State.encodeDelta]
  constructor
  · intro h
    split at h
    · cases h
    · rename_i line hl
      split at h
      · cases h
      · rename_i ref hr
        obtain ⟨-, hll, hlh⟩ := (State.loadMem_ok_iff _ _ _ _).1 hl
        obtain ⟨hn, hrl, hrh⟩ := (State.loadMem_ok_iff _ _ _ _).1 hr
        obtain ⟨u, hu, hs⟩ := Progress.andThen_eq_done.1 h
        obtain ⟨hfit, rfl⟩ := (State.appendBytes_done_iff _ _ _).1 hu
        split at hs
        · rename_i v hv
          obtain ⟨-, rfl⟩ := (State.storeMem_ok_iff _ _ _ _).1 hv
          cases hs
          exact ⟨hn, line, ref, hll, hrl, hlh, hrh, hfit, rfl⟩
        · cases hs
  · rintro ⟨hn, line, ref, hll, hrl, hlh, hrh, hfit, rfl⟩
    have hn' : n ≤ MemId.line.size := by simp only [MemId.size, Config.maxBplDirect]; omega
    have hl := (State.loadMem_ok_iff s .line n line).2 ⟨hn', hll, hlh⟩
    have hr := (State.loadMem_ok_iff s .ref n ref).2 ⟨hn, hrl, hrh⟩
    rw [hl]; simp only; rw [hr]; simp only
    rw [(State.appendBytes_done_iff { s with staging := Staging.ofDelta (deltaOf line ref) } _ _).2 ⟨hfit, rfl⟩,
      Progress.andThen_done]
    rw [(State.storeMem_ok_iff _ _ .ref line).2 ⟨by rw [hll]; exact hn, rfl⟩]
    rfl

/-- The part of a SparseDelta line after the pre-check, ended by CAPACITY: the staging and the bytes that fit are kept. -/
theorem State.encodeDelta_capacity_iff (s t : State) (n : Nat) :
    s.encodeDelta n = .capacity t ↔
      n ≤ 512 ∧ ∃ line ref : List Byte, line.length = n ∧ ref.length = n ∧ Holds s.line 0 line ∧ Holds s.ref 0 ref ∧
        s.room < (Staging.ofDelta (deltaOf line ref)).walk.length ∧
        t = { s with
          staging := Staging.ofDelta (deltaOf line ref),
          cb := s.cb.store s.cur.toNat ((Staging.ofDelta (deltaOf line ref)).walk.take s.room),
          cur := s.cur + BitVec.ofNat 16 ((Staging.ofDelta (deltaOf line ref)).walk.take s.room).length } := by
  simp only [State.encodeDelta]
  constructor
  · intro h
    split at h
    · cases h
    · rename_i line hl
      split at h
      · cases h
      · rename_i ref hr
        obtain ⟨-, hll, hlh⟩ := (State.loadMem_ok_iff _ _ _ _).1 hl
        obtain ⟨hn, hrl, hrh⟩ := (State.loadMem_ok_iff _ _ _ _).1 hr
        rcases Progress.andThen_eq_capacity.1 h with hu | ⟨u, -, hs⟩
        · obtain ⟨hfull, rfl⟩ := (State.appendBytes_capacity_iff _ _ _).1 hu
          exact ⟨hn, line, ref, hll, hrl, hlh, hrh, hfull, rfl⟩
        · split at hs <;> cases hs
  · rintro ⟨hn, line, ref, hll, hrl, hlh, hrh, hfull, rfl⟩
    have hn' : n ≤ MemId.line.size := by simp only [MemId.size, Config.maxBplDirect]; omega
    have hl := (State.loadMem_ok_iff s .line n line).2 ⟨hn', hll, hlh⟩
    have hr := (State.loadMem_ok_iff s .ref n ref).2 ⟨hn, hrl, hrh⟩
    rw [hl]; simp only; rw [hr]; simp only
    rw [(State.appendBytes_capacity_iff { s with staging := Staging.ofDelta (deltaOf line ref) } _ _).2 ⟨hfull, rfl⟩,
      Progress.andThen_capacity]
    rfl

/-! ## Receiving words, commands and events -/

/-- Words taken up to the number wanted. -/
theorem takeWords_exact (ws : List Word) (rest : List Input) :
    takeWords ws.length (ws.map .word ++ rest) = (ws, rest) := by
  induction ws with
  | nil => cases rest <;> rfl
  | cons w ws ih => simp [takeWords, ih]

/-- Words taken up to an event or the end. -/
theorem takeWords_stop (n : Nat) (ws : List Word) (rest : List Input) (hn : ws.length ≤ n)
    (hrest : ∀ w r, rest ≠ .word w :: r) : takeWords n (ws.map .word ++ rest) = (ws, rest) := by
  induction ws generalizing n with
  | nil =>
    match n, rest, hrest with
    | 0, [], _ => rfl
    | 0, _ :: _, _ => rfl
    | _ + 1, [], _ => rfl
    | _ + 1, .word w :: r, h => exact absurd rfl (h w r)
    | _ + 1, .cancel :: _, _ => rfl
    | _ + 1, .reset :: _, _ => rfl
    | _ + 1, .read _ :: _, _ => rfl
  | cons w ws ih =>
    match n, hn with
    | n + 1, hn => simp [takeWords, ih n (by simpa using hn)]

/-- What is taken is a run of words at the front of the inputs. -/
theorem takeWords_spec (n : Nat) (inputs : List Input) :
    inputs = (takeWords n inputs).1.map .word ++ (takeWords n inputs).2 ∧ (takeWords n inputs).1.length ≤ n ∧
      ((takeWords n inputs).1.length = n ∨ ∀ w r, (takeWords n inputs).2 ≠ .word w :: r) := by
  induction n generalizing inputs with
  | zero => cases inputs <;> simp [takeWords]
  | succ n ih =>
    match inputs with
    | [] => simp [takeWords]
    | .word w :: rest =>
      obtain ⟨h1, h2, h3⟩ := ih rest
      refine ⟨?_, ?_, ?_⟩
      · simp only [takeWords, List.map_cons, List.cons_append]
        rw [← h1]
      · simpa [takeWords] using h2
      · simpa [takeWords] using h3
    | .cancel :: _ => simp [takeWords]
    | .reset :: _ => simp [takeWords]
    | .read _ :: _ => simp [takeWords]

/-- A command is incomplete exactly when fewer words than its length are there. -/
theorem decode_incomplete_iff (head : Word) (ws : List Word) :
    decode (head :: ws) = .incomplete ↔ ws.length + 1 < commandLength head := by
  by_cases h1 : opcodeOf head = 0x01#8
  · match ws with
    | [] => simp [decode, commandLength, h1, decodeBeginPage]
    | [_] => simp [decode, commandLength, h1, decodeBeginPage]
    | [_, _] => simp [decode, commandLength, h1, decodeBeginPage]
    | _ :: _ :: _ :: _ => simp [decode, commandLength, h1, decodeBeginPage]
  by_cases h2 : opcodeOf head = 0x02#8
  · cases ws with
    | nil =>
      simp [decode, commandLength, h2, decodeEncodeLine]
      omega
    | cons k ws =>
      by_cases h : ws.length < payloadWords head
      · simp [decode, commandLength, h2, decodeEncodeLine, h]
        omega
      · simp [decode, commandLength, h2, decodeEncodeLine, h]
        omega
  by_cases h3 : opcodeOf head = 0x03#8
  · simp [decode, commandLength, h3]
  by_cases h4 : opcodeOf head = 0x04#8
  · cases ws <;> simp [decode, commandLength, h4, decodeRleEncode]
  · simp [decode, commandLength, h1, h2, h3, h4]

/-- `fetch` on inputs whose front words are known: they are taken if they are as many as the command at the front needs,
or fewer with no word after them. -/
theorem State.fetch_words (s : State) (ws : List Word) (rest : List Input) (hin : s.input = ws.map .word ++ rest)
    (hws : ws.length = wordsNeeded s.pending s.input ∨
      (ws.length ≤ wordsNeeded s.pending s.input ∧ ∀ w r, rest ≠ .word w :: r)) :
    s.fetch =
      match decode (s.pending ++ ws) with
      | .command i left => .run i ({ s with pending := s.pending ++ ws, input := rest }.consume (s.pending ++ ws) left)
      | .illegalOpcode _ left =>
        .illegal ({ s with pending := s.pending ++ ws, input := rest }.consume (s.pending ++ ws) left)
      | .incomplete => { s with pending := s.pending ++ ws, input := rest }.fetchEvent := by
  have h : takeWords (wordsNeeded s.pending s.input) s.input = (ws, rest) := by
    rcases hws with h | ⟨h, hr⟩
    · rw [← h, hin]; exact takeWords_exact ws rest
    · have := takeWords_stop (wordsNeeded s.pending s.input) ws rest h hr
      rwa [← hin] at this
  unfold State.fetch
  generalize takeWords (wordsNeeded s.pending s.input) s.input = taken at h
  subst h
  rfl

end Sys2Proof.Machine
end

