-- ==== Sys2Proof/Laws/Exec.lean ====
section
/-! SUPPORT. One law per operation: everything it can do if it answers a next state, and the conditions under which
it does it. -/

namespace Sys2Proof.Machine

/-- The fault an operation reports, as a chain of tests in the priority order. -/
theorem faultOf_eq (i : Instr) (s : State) :
    faultOf i s =
      if reservedIsSet i then some .reservedBits
      else if modeIsIllegal i then some .illegalMode
      else if stateViolated i s then some .stateViolation
      else if lengthMismatch i s then some .lineLengthMismatch
      else if indexMismatch i s then some .lineIndexMismatch
      else if lineOverrun i s then some .lineOverrun
      else none := by
  simp only [faultOf, faultConditions, List.find?]
  cases reservedIsSet i <;> cases modeIsIllegal i <;> cases stateViolated i s <;> cases lengthMismatch i s <;>
    cases indexMismatch i s <;> cases lineOverrun i s <;> rfl

/-- No fault condition holds. -/
theorem faultOf_eq_none_iff (i : Instr) (s : State) :
    faultOf i s = none ↔
      reservedIsSet i = false ∧ modeIsIllegal i = false ∧ stateViolated i s = false ∧ lengthMismatch i s = false ∧
        indexMismatch i s = false ∧ lineOverrun i s = false := by
  rw [faultOf_eq]
  cases reservedIsSet i <;> cases modeIsIllegal i <;> cases stateViolated i s <;> cases lengthMismatch i s <;>
    cases indexMismatch i s <;> cases lineOverrun i s <;> decide

/-- Decoding the MODE field of a mode. -/
@[simp] theorem modeOf_code (m : GraphicsMode) : modeOf m.code = some m := by cases m <;> rfl

/-- A MODE field that decodes is the mode's code. -/
theorem modeOf_eq_some {field : BitVec 2} {m : GraphicsMode} : modeOf field = some m ↔ field = m.code := by
  constructor
  · intro h
    simp only [modeOf] at h
    split at h
    · cases h; assumption
    · split at h
      · cases h; assumption
      · split at h
        · cases h; assumption
        · cases h
  · rintro rfl; exact modeOf_code m

/-- When a page can be started. -/
theorem geometryError_eq_false_iff (m : GraphicsMode) (width height : Word) :
    geometryError m width height = false ↔
      0 < width.toInt ∧ 0 < height.toInt ∧ bytesPerLine width ≤ 65535 ∧
        (m = .sparseDelta → bytesPerLine width ≤ 512) := by
  rw [geometryError, Bool.or_eq_false_iff, Bool.or_eq_false_iff, Bool.or_eq_false_iff, Bool.and_eq_false_iff,
    decide_eq_false_iff_not, decide_eq_false_iff_not, decide_eq_false_iff_not, decide_eq_false_iff_not,
    decide_eq_false_iff_not, Int.not_le, Int.not_le, Nat.not_lt, Nat.not_lt]
  constructor
  · rintro ⟨⟨⟨hw, hh⟩, hd⟩, hs⟩
    exact ⟨hw, hh, hd, fun hm => hs.elim (fun h => absurd hm h) id⟩
  · rintro ⟨hw, hh, hd, hs⟩
    refine ⟨⟨⟨hw, hh⟩, hd⟩, ?_⟩
    by_cases hm : m = .sparseDelta
    · exact .inr (hs hm)
    · exact .inl hm

/-- BPL of a page that can be started fits its register. -/
theorem bytesPerLine_register {m : GraphicsMode} {width height : Word} (h : geometryError m width height = false) :
    (BitVec.ofNat 32 (bytesPerLine width)).toNat = bytesPerLine width := by
  obtain ⟨-, -, hd, -⟩ := (geometryError_eq_false_iff m width height).1 h
  rw [BitVec.toNat_ofNat]
  exact Nat.mod_eq_of_lt (by omega)

/-- Reading a memory after `n` zero bytes are stored at its start. -/
theorem Memory.read_store_zeros (m : Memory) (n x : Nat) :
    (m.store 0 (List.replicate n 0)).read x = if x < n then some 0 else m.read x := by
  by_cases hx : x < n
  · have h := Memory.holds_store m 0 (List.replicate n 0) x (by rwa [List.length_replicate])
    rw [Nat.zero_add] at h
    rw [h, if_pos hx, List.getElem?_replicate, if_pos hx]
  · rw [Memory.read_store_outside (.inr (by rw [List.length_replicate]; omega)), if_neg hx]

/-- REF of a page that has just been started. -/
theorem State.openPage_ref_read (s : State) (m : GraphicsMode) (width height cfg : Word) (x : Nat) :
    (s.openPage m width height cfg).ref.read x = if x < 512 then some 0 else s.ref.read x :=
  Memory.read_store_zeros s.ref Config.maxBplDelta x

/-- Everything BEGIN_PAGE can do. -/
theorem exec_beginPage_cases {reserved : BitVec 22} {mode : BitVec 2} {width height cfg : Word} {s t : State}
    (h : exec (.beginPage reserved mode width height cfg) s = .next t) :
    (∃ c, c ≠ .none ∧ c ≠ .capacity ∧ t = s.recordFault c ∧
        (reserved ≠ 0 ∨ modeOf mode = none ∨ s.session ≠ .idle)) ∨
    (∃ r, t = s.refusePage r ∧ s.session = .idle) ∨
    (∃ m, mode = m.code ∧ reserved = 0 ∧ s.session = .idle ∧ s.cancelLatch = false ∧
        geometryError m width height = false ∧ t = s.openPage m width height cfg) := by
  simp only [exec, execBeginPage] at h
  split at h
  · rename_i hr
    cases h
    exact .inl ⟨_, by simp, by simp, rfl, .inl hr⟩
  rename_i hr
  split at h
  · rename_i hm
    cases h
    exact .inl ⟨_, by simp, by simp, rfl, .inr (.inl hm)⟩
  rename_i m hm
  split at h
  · rename_i hs
    cases h
    exact .inl ⟨_, by simp, by simp, rfl, .inr (.inr hs)⟩
  rename_i hs
  split at h
  · cases h
    exact .inr (.inl ⟨_, rfl, not_not.1 hs⟩)
  rename_i hl
  split at h
  · cases h
    exact .inr (.inl ⟨_, rfl, not_not.1 hs⟩)
  rename_i hg
  cases h
  exact .inr (.inr ⟨m, modeOf_eq_some.1 hm, not_not.1 hr, not_not.1 hs, by simpa using hl, by simpa using hg, rfl⟩)

/-- A line that is not canceled, in a direct mode: LINE takes the bytes and they go out. -/
theorem State.encodeScanline_direct {s : State} {k : Word} {bytes : List Byte} (hm : s.mode ≠ .sparseDelta)
    (hl : bytes.length = s.bpl.toNat) :
    s.encodeScanline k bytes =
      if MemId.line.size < bytes.length then .stopped (.badAddress .line MemId.line.size)
      else .done { s with
        line := s.line.store 0 bytes, out := s.out ++ bytes.map .byte, lineCnt := s.lineCnt + 1 } := by
  rw [State.encodeScanline]
  by_cases hb : MemId.line.size < bytes.length
  · simp [State.storeMem, hb]
  have hst := (State.storeMem_ok_iff s _ .line bytes).2 ⟨Nat.not_lt.1 hb, rfl⟩
  have hld := (State.loadMem_ok_iff (s.setMemory .line ((s.memory .line).store 0 bytes)) .line s.bpl.toNat bytes).2
    ⟨by omega, hl, by rw [State.memory_setMemory, if_pos rfl]; exact Memory.holds_store _ _ _⟩
  have hd : (s.setMemory .line ((s.memory .line).store 0 bytes)).dispatchLine k =
      (s.setMemory .line ((s.memory .line).store 0 bytes)).passThrough s.bpl.toNat := by
    rw [State.dispatchLine]
    show (match s.mode with | .directMaskAnd => _ | .directMaskOr => _ | .sparseDelta => _) = _
    cases hmode : s.mode with
    | directMaskAnd => rfl
    | directMaskOr => rfl
    | sparseDelta => exact absurd hmode hm
  rw [hst]
  simp only [hb, if_false]
  rw [hd, State.passThrough, hld]
  rfl

/-- A pre-check done leaves either the state or the state after a flush of what CB holds below CUR. -/
theorem State.preCheck_done_cases {s t : State} {n : Nat} {k : Word} (h : s.preCheck n k = .done t) :
    (t = s ∧ (worstCase n ≤ s.room ∨ s.cur = 0)) ∨
    (s.room < worstCase n ∧ s.cur ≠ 0 ∧ ∃ payload : List Byte, payload.length = s.cur.toNat ∧ Holds s.cb 0 payload ∧
      t = { s.emit (frameItems s.mark s.width s.bpl s.cur payload) with cur := 0, mark := k }) := by
  rcases (State.preCheck_done_iff s t n k).1 h with ⟨hw, rfl⟩ | ⟨hw, hf⟩
  · exact .inl ⟨rfl, .inl hw⟩
  · rcases (State.flush_done_iff s t k).1 hf with ⟨h0, rfl⟩ | ⟨h0, payload, hl, hh, rfl⟩
    · exact .inl ⟨rfl, .inr h0⟩
    · exact .inr ⟨hw, h0, payload, hl, hh, rfl⟩

/-- A SparseDelta line in LINE goes on from the pre-check with the same LINE, REF and BPL. -/
theorem State.preCheck_done_same {s t : State} {n : Nat} {k : Word} (h : s.preCheck n k = .done t) :
    t.line = s.line ∧ t.ref = s.ref ∧ t.bpl = s.bpl := by
  rcases State.preCheck_done_cases h with ⟨rfl, -⟩ | ⟨-, -, payload, -, -, rfl⟩ <;> exact ⟨rfl, rfl, rfl⟩

/-- A pre-check done changes nothing but OUT, CUR and MARK. -/
theorem State.preCheck_done_frame {s t : State} {n : Nat} {k : Word} (h : s.preCheck n k = .done t) :
    t.session = s.session ∧ SamePage s t ∧ t.lineCnt = s.lineCnt ∧ SameCancel s t ∧ t.beginResult = s.beginResult ∧
      SameFault s t ∧ t.pageIdx = s.pageIdx ∧ t.line = s.line ∧ t.ref = s.ref ∧ t.cb = s.cb ∧
      t.staging = s.staging ∧ SamePorts s t := by
  rcases State.preCheck_done_cases h with ⟨rfl, -⟩ | ⟨-, -, payload, -, -, rfl⟩ <;>
    simp [SamePage, SameCancel, SameFault, SamePorts, State.emit]

/-- A line that is not canceled, in SparseDelta mode: LINE takes the bytes and the codec's line procedure runs. -/
theorem State.encodeScanline_sparse {s : State} {k : Word} {bytes : List Byte} (hm : s.mode = .sparseDelta)
    (hb : bytes.length ≤ 65535) :
    s.encodeScanline k bytes =
      ({ s with line := s.line.store 0 bytes }.preCheck s.bpl.toNat k).andThen fun u =>
        (u.encodeDelta s.bpl.toNat).andThen fun v => .done v.countLine := by
  rw [State.encodeScanline]
  have hst := (State.storeMem_ok_iff s _ .line bytes).2 ⟨hb, rfl⟩
  rw [hst]
  simp only
  have hd : (s.setMemory .line ((s.memory .line).store 0 bytes)).dispatchLine k =
      (s.setMemory .line ((s.memory .line).store 0 bytes)).sparseDeltaLine k := by
    rw [State.dispatchLine]
    show (match s.mode with | .directMaskAnd => _ | .directMaskOr => _ | .sparseDelta => _) = _
    rw [hm]
  rw [hd, State.sparseDeltaLine]
  show (({ s with line := s.line.store 0 bytes }.preCheck s.bpl.toNat k).andThen _).andThen _ = _
  cases hp : { s with line := s.line.store 0 bytes }.preCheck s.bpl.toNat k with
  | done u =>
    have hu := (State.preCheck_done_same hp).2.2
    simp only [Progress.andThen_done]
    rw [show u.bpl = s.bpl from hu]
  | capacity u => rfl
  | stopped r => rfl

/-- A line that is not canceled, in SparseDelta mode, done: LINE takes the bytes, the pre-check is done, the walk of the
delta is appended, REF takes the line, and the line is counted. -/
theorem State.encodeScanline_sparse_done_iff {s : State} {k : Word} {bytes : List Byte} (t : State)
    (hm : s.mode = .sparseDelta) (hl : bytes.length = s.bpl.toNat) (hb : bytes.length ≤ 65535) :
    s.encodeScanline k bytes = .done t ↔
      bytes.length ≤ 512 ∧ ∃ (u : State) (ref : List Byte),
        { s with line := s.line.store 0 bytes }.preCheck s.bpl.toNat k = .done u ∧
        ref.length = bytes.length ∧ Holds s.ref 0 ref ∧
        (Staging.ofDelta (deltaOf bytes ref)).walk.length ≤ u.room ∧
        t = { u with
          staging := Staging.ofDelta (deltaOf bytes ref),
          cb := u.cb.store u.cur.toNat (Staging.ofDelta (deltaOf bytes ref)).walk,
          cur := u.cur + BitVec.ofNat 16 (Staging.ofDelta (deltaOf bytes ref)).walk.length,
          ref := u.ref.store 0 bytes, lineCnt := u.lineCnt + 1 } := by
  rw [State.encodeScanline_sparse hm hb]
  constructor
  · intro h
    obtain ⟨u, hu, h⟩ := Progress.andThen_eq_done.1 h
    obtain ⟨v, hv, ht⟩ := Progress.andThen_eq_done.1 h
    obtain ⟨hline, href, -⟩ := State.preCheck_done_same hu
    obtain ⟨hn, line, ref, hll, hrl, hlh, hrh, hfit, rfl⟩ := (State.encodeDelta_done_iff _ _ _).1 hv
    rw [hline] at hlh
    rw [href] at hrh
    obtain rfl : line = bytes := Holds.unique hlh (Memory.holds_store _ _ _) (by omega)
    cases ht
    exact ⟨by omega, u, ref, hu, by omega, hrh, hfit, rfl⟩
  · rintro ⟨hn, u, ref, hu, hrl, hrh, hfit, rfl⟩
    obtain ⟨hline, href, -⟩ := State.preCheck_done_same hu
    rw [hu, Progress.andThen_done,
      (State.encodeDelta_done_iff u _ s.bpl.toNat).2
        ⟨by omega, bytes, ref, hl, by omega, by rw [hline]; exact Memory.holds_store _ _ _, by rw [href]; exact hrh, hfit, rfl⟩]
    rfl

/-- A line that is not canceled, in SparseDelta mode, ended by CAPACITY: LINE takes the bytes, the pre-check is done, and
the staging and the bytes of the walk that fit are kept. -/
theorem State.encodeScanline_sparse_capacity {s t : State} {k : Word} {bytes : List Byte}
    (hm : s.mode = .sparseDelta) (hl : bytes.length = s.bpl.toNat) (hb : bytes.length ≤ 65535)
    (h : s.encodeScanline k bytes = .capacity t) :
    bytes.length ≤ 512 ∧ ∃ (u : State) (ref : List Byte),
      { s with line := s.line.store 0 bytes }.preCheck s.bpl.toNat k = .done u ∧
      ref.length = bytes.length ∧ Holds s.ref 0 ref ∧
      u.room < (Staging.ofDelta (deltaOf bytes ref)).walk.length ∧
      t = { u with
        staging := Staging.ofDelta (deltaOf bytes ref),
        cb := u.cb.store u.cur.toNat ((Staging.ofDelta (deltaOf bytes ref)).walk.take u.room),
        cur := u.cur + BitVec.ofNat 16 ((Staging.ofDelta (deltaOf bytes ref)).walk.take u.room).length } := by
  rw [State.encodeScanline_sparse hm hb] at h
  rcases Progress.andThen_eq_capacity.1 h with h | ⟨u, hu, h⟩
  · exact absurd h (State.preCheck_ne_capacity _ _ _ _)
  obtain ⟨hline, href, -⟩ := State.preCheck_done_same hu
  rcases Progress.andThen_eq_capacity.1 h with h | ⟨v, -, h⟩
  · obtain ⟨hn, line, ref, hll, hrl, hlh, hrh, hfull, rfl⟩ := (State.encodeDelta_capacity_iff _ _ _).1 h
    rw [hline] at hlh
    rw [href] at hrh
    obtain rfl : line = bytes := Holds.unique hlh (Memory.holds_store _ _ _) (by omega)
    exact ⟨by omega, u, ref, hu, by omega, hrh, hfull, rfl⟩
  · cases h

/-- Everything a line that is not canceled can do: in a direct mode the bytes go out; in SparseDelta mode, after the
pre-check, the walk is appended, or CAPACITY ends the line where it does not fit. -/
theorem State.encodeScanline_next_cases {s t : State} {k : Word} {bytes : List Byte}
    (hl : bytes.length = s.bpl.toNat) (h : (s.encodeScanline k bytes).outcome = .next t) :
    bytes.length ≤ 65535 ∧
    ((s.mode ≠ .sparseDelta ∧ t = { s with
        line := s.line.store 0 bytes, out := s.out ++ bytes.map .byte, lineCnt := s.lineCnt + 1 }) ∨
     (s.mode = .sparseDelta ∧ bytes.length ≤ 512 ∧ ∃ (u : State) (ref : List Byte),
        { s with line := s.line.store 0 bytes }.preCheck s.bpl.toNat k = .done u ∧
        ref.length = bytes.length ∧ Holds s.ref 0 ref ∧
        (((Staging.ofDelta (deltaOf bytes ref)).walk.length ≤ u.room ∧ t = { u with
            staging := Staging.ofDelta (deltaOf bytes ref),
            cb := u.cb.store u.cur.toNat (Staging.ofDelta (deltaOf bytes ref)).walk,
            cur := u.cur + BitVec.ofNat 16 (Staging.ofDelta (deltaOf bytes ref)).walk.length,
            ref := u.ref.store 0 bytes, lineCnt := u.lineCnt + 1 }) ∨
         (u.room < (Staging.ofDelta (deltaOf bytes ref)).walk.length ∧ t = { u with
            staging := Staging.ofDelta (deltaOf bytes ref),
            cb := u.cb.store u.cur.toNat ((Staging.ofDelta (deltaOf bytes ref)).walk.take u.room),
            cur := u.cur + BitVec.ofNat 16 ((Staging.ofDelta (deltaOf bytes ref)).walk.take u.room).length
            }.recordFault .capacity)))) := by
  have hb : bytes.length ≤ 65535 := by
    by_contra hb
    rw [State.encodeScanline, State.storeMem,
      if_pos (show MemId.line.size < bytes.length by simp only [MemId.size, Config.maxBplDirect]; omega)] at h
    cases h
  refine ⟨hb, ?_⟩
  by_cases hm : s.mode = .sparseDelta
  · refine .inr ⟨hm, ?_⟩
    rcases Progress.outcome_eq_next.1 h with hd | ⟨v, hd, rfl⟩
    · obtain ⟨hn, u, ref, hu, hrl, hrh, hfit, rfl⟩ := (State.encodeScanline_sparse_done_iff _ hm hl hb).1 hd
      exact ⟨hn, u, ref, hu, hrl, hrh, .inl ⟨hfit, rfl⟩⟩
    · obtain ⟨hn, u, ref, hu, hrl, hrh, hfull, rfl⟩ := State.encodeScanline_sparse_capacity hm hl hb hd
      exact ⟨hn, u, ref, hu, hrl, hrh, .inr ⟨hfull, rfl⟩⟩
  · rw [State.encodeScanline_direct hm hl,
      if_neg (show ¬MemId.line.size < bytes.length by simp only [MemId.size, Config.maxBplDirect]; omega)] at h
    cases h
    exact .inl ⟨hm, rfl⟩

/-- Everything ENCODE_LINE can do: a fault, the canceling no-op, or the line itself, for the reasons given. -/
theorem exec_encodeLine_cases {reserved : BitVec 8} {k : Word} {bytes pad : List Byte} {s t : State}
    (h : exec (.encodeLine reserved k bytes pad) s = .next t) :
    (∃ c, c ≠ .none ∧ c ≠ .capacity ∧ t = s.recordFault c) ∨
    (reserved = 0 ∧ s.session ≠ .idle ∧ bytes.length = s.bpl.toNat ∧ s.canceling = true ∧
      t = { s with session := .canceling }) ∨
    (reserved = 0 ∧ s.session = .active ∧ bytes.length = s.bpl.toNat ∧ s.cancelReq = false ∧ k = s.lineCnt ∧
      (s.lineCnt.toNat : Int) < s.height.toInt ∧ (s.encodeScanline k bytes).outcome = .next t) := by
  simp only [exec, execEncodeLine] at h
  split at h
  · cases h; exact .inl ⟨_, by simp, by simp, rfl⟩
  rename_i hr
  split at h
  · cases h; exact .inl ⟨_, by simp, by simp, rfl⟩
  rename_i hs
  split at h
  · cases h; exact .inl ⟨_, by simp, by simp, rfl⟩
  rename_i hl
  split at h
  · rename_i hc
    cases h
    exact .inr (.inl ⟨not_not.1 hr, hs, not_not.1 hl, hc, rfl⟩)
  rename_i hc
  split at h
  · cases h; exact .inl ⟨_, by simp, by simp, rfl⟩
  rename_i hk
  split at h
  · cases h; exact .inl ⟨_, by simp, by simp, rfl⟩
  rename_i ho
  simp only [State.canceling, Bool.or_eq_true, decide_eq_true_eq, not_or] at hc
  replace ho : (s.lineCnt.toNat : Int) < s.height.toInt :=
    not_le.1 fun hle => ho (decide_eq_true hle)
  refine .inr (.inr ⟨not_not.1 hr, ?_, not_not.1 hl, by simpa using hc.2, ?_, ho, h⟩)
  · cases hsess : s.session
    · exact absurd hsess hs
    · rfl
    · exact absurd hsess hc.1
  · exact BitVec.eq_of_toNat_eq (not_not.1 hk)

/-- An ENCODE_LINE that passes its checks runs the line. -/
theorem exec_encodeLine_accepted {bytes : List Byte} (pad : List Byte) {s : State} (hs : s.session = .active)
    (hl : bytes.length = s.bpl.toNat) (hc : s.cancelReq = false) (ho : (s.lineCnt.toNat : Int) < s.height.toInt) :
    exec (.encodeLine 0 s.lineCnt bytes pad) s = (s.encodeScanline s.lineCnt bytes).outcome := by
  simp [exec, execEncodeLine, hs, hl, hc, State.canceling, unsignedOf, State.linesDone, signedOf, not_le.2 ho]

/-- Everything END_PAGE can do: a fault, or the flush of SparseDelta mode and the close of the page. -/
theorem exec_endPage_cases {reserved : BitVec 24} {s t : State} (h : exec (.endPage reserved) s = .next t) :
    (∃ c, c ≠ .none ∧ c ≠ .capacity ∧ t = s.recordFault c) ∨
    (reserved = 0 ∧ s.session ≠ .idle ∧ ∃ u, s.sampleCancel.finalFlush = .done u ∧ t = u.closePage) := by
  simp only [exec, execEndPage] at h
  split at h
  · cases h; exact .inl ⟨_, by simp, by simp, rfl⟩
  rename_i hr
  split at h
  · cases h; exact .inl ⟨_, by simp, by simp, rfl⟩
  rename_i hs
  rcases Progress.outcome_eq_next.1 h with h | ⟨u, h, -⟩
  · obtain ⟨u, hu, h⟩ := Progress.andThen_eq_done.1 h
    cases h
    exact .inr ⟨not_not.1 hr, hs, u, hu, rfl⟩
  · rcases Progress.andThen_eq_capacity.1 h with h | ⟨v, -, h⟩
    · exfalso
      revert h
      rw [State.finalFlush]
      split
      · simp
      · simp
      · exact State.flush_ne_capacity _ _ _
    · cases h

/-- The flush of END_PAGE, done: a flush with line index 0 in SparseDelta mode, nothing in a direct mode. -/
theorem State.finalFlush_done_cases {s t : State} (h : s.finalFlush = .done t) :
    (t = s ∧ (s.mode = .sparseDelta → s.cur = 0)) ∨
    (s.mode = .sparseDelta ∧ s.cur ≠ 0 ∧ ∃ payload : List Byte, payload.length = s.cur.toNat ∧ Holds s.cb 0 payload ∧
      t = { s.emit (frameItems s.mark s.width s.bpl s.cur payload) with cur := 0, mark := 0 }) := by
  rw [State.finalFlush] at h
  split at h
  · rename_i hm; cases h; exact .inl ⟨rfl, by simp [hm]⟩
  · rename_i hm; cases h; exact .inl ⟨rfl, by simp [hm]⟩
  · rename_i hm
    rcases (State.flush_done_iff s t 0).1 h with ⟨h0, rfl⟩ | ⟨h0, payload, hl, hh, rfl⟩
    · exact .inl ⟨rfl, fun _ => h0⟩
    · exact .inr ⟨hm, h0, payload, hl, hh, rfl⟩

/-- Everything RLE_ENCODE can do. -/
theorem exec_rleEncode_cases {reserved : BitVec 16} {c : Byte} {n : Word} {s t : State}
    (h : exec (.rleEncode reserved c n) s = .next t) :
    (t = s.recordFault .reservedBits ∧ reserved ≠ 0) ∨ (reserved = 0 ∧ t = s.emitBytes (runBytes c n.toNat)) := by
  simp only [exec, execRleEncode] at h
  split at h
  · rename_i hr; cases h; exact .inl ⟨rfl, hr⟩
  · rename_i hr; cases h; exact .inr ⟨not_not.1 hr, rfl⟩

/-- Everything CANCEL can do. -/
theorem exec_cancel_eq (s : State) :
    exec .cancel s =
      .next (if s.session = .idle then { s with cancelLatch := true } else { s with cancelReq := true }) := by
  simp only [exec, execCancel]
  split <;> rename_i h <;> simp [h]

/-! ## The step -/

/-- How many words are left after a command or an illegal head word. -/
theorem decode_left_length (head : Word) (ws left : List Word) :
    (∀ i, decode (head :: ws) = .command i left → left.length + commandLength head = ws.length + 1) ∧
    (∀ w, decode (head :: ws) = .illegalOpcode w left → left.length + commandLength head = ws.length + 1) := by
  by_cases h1 : opcodeOf head = 0x01#8
  · have hc : commandLength head = 4 := by simp [commandLength, h1]
    match ws with
    | [] => simp [decode, h1, decodeBeginPage]
    | [_] => simp [decode, h1, decodeBeginPage]
    | [_, _] => simp [decode, h1, decodeBeginPage]
    | _ :: _ :: _ :: rest => simp +contextual [decode, h1, decodeBeginPage, hc]
  by_cases h2 : opcodeOf head = 0x02#8
  · have hc : commandLength head = 2 + payloadWords head := by simp [commandLength, h2]
    cases ws with
    | nil => simp [decode, h2, decodeEncodeLine]
    | cons k ws =>
      by_cases h : ws.length < payloadWords head
      · simp [decode, h2, decodeEncodeLine, h]
      · simp only [decode, h2, decodeEncodeLine, h, hc, if_true, if_false]
        refine ⟨fun i h' => ?_, fun w h' => by cases h'⟩
        cases h'
        simp only [List.length_drop, List.length_cons]
        omega
  by_cases h3 : opcodeOf head = 0x03#8
  · have hc : commandLength head = 1 := by simp [commandLength, h3]
    simp +contextual [decode, h3, hc]
  by_cases h4 : opcodeOf head = 0x04#8
  · have hc : commandLength head = 2 := by simp [commandLength, h4]
    cases ws <;> simp +contextual [decode, h4, decodeRleEncode, hc]
  · have hc : commandLength head = 1 := by simp [commandLength, h1, h2, h3, h4]
    simp +contextual [decode, h1, h2, h3, h4, hc]

/-- The words received and taken are at most one command's, if those received were not a whole one. -/
theorem taken_length_le (s : State) (head : Word) (ws : List Word) (hp : decode s.pending = .incomplete)
    (hgot : s.pending ++ (takeWords (wordsNeeded s.pending s.input) s.input).1 = head :: ws) :
    ws.length + 1 ≤ commandLength head := by
  obtain ⟨hin, hle, -⟩ := takeWords_spec (wordsNeeded s.pending s.input) s.input
  generalize takeWords (wordsNeeded s.pending s.input) s.input = taken at hin hle hgot
  have hlen := congrArg List.length hgot
  simp only [List.length_append, List.length_cons] at hlen
  cases hpend : s.pending with
  | cons h0 got =>
    rw [hpend, List.cons_append] at hgot
    obtain ⟨rfl, -⟩ := List.cons.inj hgot
    rw [hpend, decode_incomplete_iff] at hp
    rw [hpend] at hle hlen
    simp only [wordsNeeded, List.length_cons] at hle hlen
    omega
  | nil =>
    rw [hpend, List.nil_append] at hgot
    rw [hgot] at hin
    rw [hpend, hin] at hle
    simp only [List.map_cons, List.cons_append, wordsNeeded] at hle
    rw [hgot] at hle
    simpa using hle

/-- Everything a step can do: with some words and inputs taken, it runs an operation, rejects an illegal head word, or
waits. What is received afterwards is no whole command, if that was so before. -/
theorem step_cases (s : State) :
    ∃ (p : List Word) (inp : List Input) (c : Nat), (decode s.pending = .incomplete → decode p = .incomplete) ∧
      ((∃ i, step s = exec i { s with pending := p, input := inp, cmdPos := c }) ∨
        step s = .next ({ s with pending := p, input := inp, cmdPos := c }.recordFault .illegalOpcode) ∨
        step s = .next { s with pending := p, input := inp, cmdPos := c }) := by
  have hlen := taken_length_le s
  rw [step, State.fetch]
  generalize takeWords (wordsNeeded s.pending s.input) s.input = taken at hlen
  have hleft : ∀ left : List Word, (decode s.pending = .incomplete →
      ((∃ i, decode (s.pending ++ taken.1) = .command i left) ∨
        (∃ w, decode (s.pending ++ taken.1) = .illegalOpcode w left)) → decode left = .incomplete) := by
    intro left hp h
    cases hgot : s.pending ++ taken.1 with
    | nil =>
      rw [hgot] at h
      rcases h with ⟨i, h⟩ | ⟨w, h⟩ <;> cases h
    | cons head ws =>
      rw [hgot] at h
      have hl : left.length + commandLength head = ws.length + 1 := by
        rcases h with ⟨i, h⟩ | ⟨w, h⟩
        · exact (decode_left_length head ws left).1 i h
        · exact (decode_left_length head ws left).2 w h
      have := hlen head ws hp hgot
      obtain rfl : left = [] := List.length_eq_zero_iff.1 (by omega)
      rfl
  cases hd : decode (s.pending ++ taken.1) with
  | command i left =>
    exact ⟨left, taken.2, _, fun hp => hleft left hp (.inl ⟨i, hd⟩), .inl ⟨i, rfl⟩⟩
  | illegalOpcode w left =>
    exact ⟨left, taken.2, _, fun hp => hleft left hp (.inr ⟨w, hd⟩), .inr (.inl rfl)⟩
  | incomplete =>
    obtain ⟨words, inputs⟩ := taken
    match inputs with
    | .cancel :: rest => exact ⟨_, rest, s.cmdPos, fun _ => hd, .inl ⟨.cancel, rfl⟩⟩
    | .reset :: rest => exact ⟨_, rest, s.cmdPos, fun _ => hd, .inl ⟨.reset, rfl⟩⟩
    | .read index :: rest => exact ⟨_, rest, s.cmdPos, fun _ => hd, .inl ⟨.read index, rfl⟩⟩
    | .word w :: rest => exact ⟨_, .word w :: rest, s.cmdPos, fun _ => hd, .inr (.inr rfl)⟩
    | [] => exact ⟨_, [], s.cmdPos, fun _ => hd, .inr (.inr rfl)⟩

end Sys2Proof.Machine
end

