-- ==== Sys2Proof/Laws/PerInstr.lean ====
section
/-! SUPPORT. Statements made per instruction: the encoding of a well-formed command has the length its head word gives
(spec/30_encoding.md R118). -/

namespace Sys2Proof.Laws

/-- Packing whole words gives a word for every four bytes (R124). -/
theorem length_packBytes (bs : List Byte) : 4 * (packBytes bs).length = bs.length - bs.length % 4 := by
  induction bs using packBytes.induct with
  | case1 b0 b1 b2 b3 rest ih => simp only [packBytes, List.length_cons]; omega
  | case2 bs h =>
    match bs, h with
    | [], _ => simp [packBytes]
    | [_], _ => simp [packBytes]
    | [_, _], _ => simp [packBytes]
    | [_, _, _], _ => simp [packBytes]
    | b0 :: b1 :: b2 :: b3 :: rest, h => exact absurd rfl (h b0 b1 b2 b3 rest)

/-- A scanline with its pad bytes is whole words (R124). -/
theorem length_payload (n : Nat) : n + padCount n = 4 * ceilDiv n 4 := by
  simp only [padCount, ceilDiv]; omega

/-- OPC of a head word put together from its fields (R111). -/
theorem opcodeOf_append (opc : BitVec 8) (arg : BitVec 24) : opcodeOf (opc ++ arg) = opc := by
  ext i hi
  simp only [opcodeOf, BitVec.getElem_extractLsb', BitVec.getLsbD_append]
  have h : ¬ 24 + i < 24 := by omega
  simp only [h, Nat.add_sub_cancel_left, BitVec.getLsbD_eq_getElem hi]
  simp

/-- NBYTES of an ENCODE_LINE head word put together from its fields (R114). -/
theorem nbytesOf_append (hi : BitVec 16) (n : Nat) (h : n < 2 ^ 16) :
    nbytesOf (hi ++ BitVec.ofNat 16 n) = n := by
  have e : (hi ++ BitVec.ofNat 16 n : BitVec 32).extractLsb' 0 16 = BitVec.ofNat 16 n := by
    ext i hi'
    simp only [BitVec.getElem_extractLsb', BitVec.getLsbD_append, Nat.zero_add, hi']
    rw [BitVec.getLsbD_eq_getElem hi']
    simp
  rw [nbytesOf, e, BitVec.toNat_ofNat, Nat.mod_eq_of_lt h]

/-- The encoding of a well-formed command is as long as its head word says (R118). -/
def EncodedLength.Statement (i : Instr) : Prop :=
  i.wellFormed = true → i.isCommand = true → (encode i).length = commandLength ((encode i).headD 0)

theorem EncodedLength.beginPage (reserved : BitVec 22) (mode : BitVec 2) (width height cfg : Word) :
    EncodedLength.Statement (.beginPage reserved mode width height cfg) := by
  intro _ _
  have e : (0x01#8 ++ reserved ++ mode : BitVec 32) = 0x01#8 ++ (reserved ++ mode : BitVec 24) :=
    BitVec.append_assoc
  have h : opcodeOf (0x01#8 ++ reserved ++ mode) = 0x01#8 := by
    rw [e]; exact opcodeOf_append _ _
  simp [encode, commandLength, h]

theorem EncodedLength.encodeLine (reserved : BitVec 8) (lineIndex : Word) (bytes pad : List Byte) :
    EncodedLength.Statement (.encodeLine reserved lineIndex bytes pad) := by
  intro hw _
  simp only [Instr.wellFormed, Bool.and_eq_true, decide_eq_true_eq] at hw
  have h : opcodeOf (0x02#8 ++ reserved ++ BitVec.ofNat 16 bytes.length) = 0x02#8 := by
    have e : (0x02#8 ++ reserved ++ BitVec.ofNat 16 bytes.length : BitVec 32) =
        0x02#8 ++ (reserved ++ BitVec.ofNat 16 bytes.length : BitVec 24) := BitVec.append_assoc
    rw [e]; exact opcodeOf_append _ _
  have hn : nbytesOf (0x02#8 ++ reserved ++ BitVec.ofNat 16 bytes.length) = bytes.length :=
    nbytesOf_append _ _ hw.1
  have hp := length_packBytes (bytes ++ pad)
  have hl := length_payload bytes.length
  simp only [List.length_append, hw.2] at hp
  simp only [encode, commandLength, payloadWords, h, hn, List.headD_cons, List.length_cons]
  simp only [BitVec.reduceEq, if_false, if_true]
  omega

theorem EncodedLength.endPage (reserved : BitVec 24) : EncodedLength.Statement (.endPage reserved) := by
  intro _ _
  have h : opcodeOf (0x03#8 ++ reserved) = 0x03#8 := opcodeOf_append _ _
  simp [encode, commandLength, h]

theorem EncodedLength.rleEncode (reserved : BitVec 16) (char : Byte) (count : Word) :
    EncodedLength.Statement (.rleEncode reserved char count) := by
  intro _ _
  have h : opcodeOf (0x04#8 ++ reserved ++ char) = 0x04#8 := by
    have e : (0x04#8 ++ reserved ++ char : BitVec 32) = 0x04#8 ++ (reserved ++ char : BitVec 24) :=
      BitVec.append_assoc
    rw [e]; exact opcodeOf_append _ _
  simp [encode, commandLength, h]

theorem EncodedLength.cancel : EncodedLength.Statement .cancel := fun _ h => by cases h

theorem EncodedLength.read (index : Nat) : EncodedLength.Statement (.read index) := fun _ h => by cases h

theorem EncodedLength.reset : EncodedLength.Statement .reset := fun _ h => by cases h

end Sys2Proof.Laws
end

