-- ==== Sys2Proof/Tests/Slice0.lean ====
section
/-! SUPPORT. The model's own tests, each expected value from spec/95_test_vectors.md or the rule named, and a witness for
the hypotheses of each statement. -/

namespace Sys2Proof.Tests

open Sys2Proof Sys2Proof.Machine

/-! ## Well-formedness: each check refuses an ill-formed term -/

theorem test_wellFormed_accepts_line :
    (Instr.encodeLine 0 0 [0x11, 0x22, 0x33, 0x44, 0x55] [0, 0, 0]).wellFormed = true := by decide

theorem test_wellFormed_refuses_missing_pad :
    (Instr.encodeLine 0 0 [0x11, 0x22, 0x33, 0x44, 0x55] [0, 0]).wellFormed = false := by decide

theorem long_line_ill_formed (bytes : List Byte) (h : bytes.length = 65536) :
    (Instr.encodeLine 0 0 bytes []).wellFormed = false := by
  simp [Instr.wellFormed, h]

theorem test_wellFormed_refuses_long_line :
    (Instr.encodeLine 0 0 (List.replicate 65536 0) []).wellFormed = false :=
  long_line_ill_formed _ List.length_replicate

/-! ## Decoding: words written out from 30_encoding.md R113 to R117 -/

/-- R113: OPC 00000001, 22 reserved bits, MODE 10; then WIDTH, HEIGHT, CFG (95_test_vectors.md, P1). -/
theorem test_decode_begin_page :
    decode [0b00000001000000000000000000000010#32, 64#32, 3#32, 7#32] = .command (.beginPage 0 2 64 3 7) [] := by
  decide

/-- R113, R119: reserved bit 2 set is still BEGIN_PAGE (vector F-3). -/
theorem test_decode_begin_page_reserved :
    decode [0x01000006#32, 0x40#32, 1#32, 0#32] = .command (.beginPage 1 2 64 1 0) [] := by decide

/-- R114, R124: OPC 00000010, 8 reserved bits, NBYTES 5; pad bytes kept apart (95_test_vectors.md L2.6). -/
theorem test_decode_encode_line :
    decode [0b00000010000000000000000000000101#32, 9#32, 0x11223344#32, 0x55AABBCC#32, 1#32] =
      .command (.encodeLine 0 9 [0x11, 0x22, 0x33, 0x44, 0x55] [0xAA, 0xBB, 0xCC]) [1#32] := by decide

/-- R115: OPC 00000011, 24 reserved bits. -/
theorem test_decode_end_page :
    decode [0b00000011000000000000000000000000#32, 5#32] = .command (.endPage 0) [5#32] := by decide

/-- R116: OPC 00000100, 16 reserved bits, CHAR 01000001; then COUNT (95_test_vectors.md L2.4). -/
theorem test_decode_rle_encode :
    decode [0b00000100000000000000000001000001#32, 0x1C2#32] = .command (.rleEncode 0 0x41 450) [] := by decide

/-- R117: OPC 0x00 and 0x05 are illegal head words (vectors F-1, F-2). -/
theorem test_decode_illegal :
    decode [0x00000000#32, 7#32] = .illegalOpcode 0#32 [7#32] ∧ decode [0x05000000#32] = .illegalOpcode 0x05000000#32 [] := by
  decide

/-- R118: a command with a word missing is incomplete. -/
theorem test_decode_incomplete : decode [0x02000005#32, 0#32, 0x11223344#32] = .incomplete := by decide

/-- R128: the lines of program P1 assemble to the words listed there. -/
theorem test_assemble_lines :
    encode (AsmLine.beginPage .sparseDelta 64 3 0).assemble = [0x01000002#32, 0x40#32, 3#32, 0#32] ∧
    encode (AsmLine.encodeLine 1 [0x80, 0, 0, 0, 0, 0, 0, 0]).assemble =
      [0x02000008#32, 1#32, 0x80000000#32, 0#32] ∧
    encode AsmLine.endPage.assemble = [0x03000000#32] := by decide

/-- The table's words of the four commands, operand words zero. -/
theorem test_table_words :
    decodeTableWord 32 0x01000000 = some (.beginPage 0 0 0 0 0) ∧
    decodeTableWord 32 0x02000000 = some (.encodeLine 0 0 [] []) ∧
    decodeTableWord 32 0x03000000 = some (.endPage 0) ∧
    decodeTableWord 32 0x04000000 = some (.rleEncode 0 0 0) ∧ decodeTableWord 0 0 = none := by decide

/-! ## Small states -/

/-- A page just opened from reset. -/
def openedPage (m : GraphicsMode) (width height : Word) : State := State.reset.openPage m width height 0

/-- The SparseDelta page of program P1: BPL 8, 3 lines. -/
def sparsePage : State := openedPage .sparseDelta 64 3

/-- The direct page of program P3: BPL 2, 2 lines. -/
def directPage : State := openedPage .directMaskOr 12 2

/-- The page of P1 after line 0, with `n` bytes in the chunk buffer. -/
def bufferedPage (n : BitVec 16) : State :=
  { sparsePage with cb := Memory.store [] 0 (List.replicate n.toNat 0), cur := n, lineCnt := 1 }

/-- What a next state is like; false of a stop. -/
def nextIs (p : State → Bool) : Host.Outcome State Fault Refusal → Bool
  | .next s => p s
  | .fault _ => false
  | .refused _ => false

/-- The outcome is a next state. -/
def answers : Host.Outcome State Fault Refusal → Bool := nextIs fun _ => true

/-! ## One step of each operation -/

/-- Example of R153: `BEGIN_PAGE SPARSE_DELTA, 64, 3, 0` from reset. -/
theorem test_begin_page_opens :
    nextIs (fun t => decide (t.statusWord = 0x00000009#32 ∧ t.bpl = 8 ∧ t.pageIdx = 1 ∧
      t.out = [.setup 0 64 3 .sparseDelta] ∧ t.cmdPos = 4))
      (step { State.reset with input := [.word 0x01000002, .word 0x40, .word 3, .word 0] }) = true := by decide

/-- Vector B-3: width 4097 in SparseDelta. -/
theorem test_begin_page_too_wide :
    nextIs (fun t => decide (t.statusWord = 0x00000040#32 ∧ t.out = []))
      (exec (.beginPage 0 2 4097 1 0) State.reset) = true := by decide

/-- Example of R161, program P3: a direct line is copied. -/
theorem test_encode_line_direct :
    nextIs (fun t => decide (t.out = directPage.out ++ [.byte 0xAB, .byte 0xC0] ∧ t.lineCnt = 1))
      (exec (.encodeLine 0 0 [0xAB, 0xC0] [0, 0]) directPage) = true := by decide

/-- Vector L1-1: one changed byte appends 80 80 80 FF. -/
theorem test_encode_line_sparse :
    nextIs (fun t => decide (t.cur = 4 ∧ t.cb = [(0, 0x80), (1, 0x80), (2, 0x80), (3, 0xFF)] ∧
      t.ref.read 0 = some 0xFF ∧ t.out = sparsePage.out))
      (exec (.encodeLine 0 0 [0xFF, 0, 0, 0, 0, 0, 0, 0] []) sparsePage) = true := by decide +kernel

/-- Vector CF-6 and program P1: six bytes, one frame, then the trailer. -/
theorem test_end_page_frame :
    nextIs (fun t => decide (t.out = sparsePage.out ++ [.frameHeader 0 64 8, .byte 0x00, .byte 0x06,
      .byte 0, .byte 0, .byte 0, .byte 0, .byte 0, .byte 0, .frameTerminator, .trailer 0 .sparseDelta] ∧
      t.statusWord = 0x00000008#32 ∧ t.cur = 0 ∧ t.mark = 0))
      (exec (.endPage 0) (bufferedPage 6)) = true := by decide +kernel

/-- Vector CA-4: CANCEL, then END_PAGE with an empty buffer. -/
theorem test_end_page_canceled :
    nextIs (fun t => decide (t.out = sparsePage.out ++ [.deviceReset] ∧ t.cancelLatch = true ∧ t.session = .idle))
      (exec (.endPage 0) { sparsePage with cancelReq := true }) = true := by decide

/-- Vector L1-5: `encode('A', 450)`. -/
theorem test_rle_450 :
    exec (.rleEncode 0 0x41 450) State.reset = .next (State.reset.emit
      [.byte tokenT400, .byte (tokenT20 2), .byte (tokenT1 10), .byte 0x41]) := rfl

/-- Vector L1-6: `encode('A', 1)` is the literal alone. -/
theorem test_rle_1 : exec (.rleEncode 0 0x41 1) State.reset = .next (State.reset.emit [.byte 0x41]) := rfl

/-- Vector CA-1: STATE still Active, CANCEL_REQ set. -/
theorem test_cancel_active :
    nextIs (fun t => decide (t.statusWord = 0x00000019#32)) (exec .cancel sparsePage) = true := by decide

/-- R170: a CANCEL in Idle sets the latch. -/
theorem test_cancel_idle :
    nextIs (fun t => decide (t.cancelLatch = true ∧ t.cancelReq = false)) (exec .cancel State.reset) = true := by decide

/-- R48: index 5 reads BPL, index 8 reads 0. -/
theorem test_read_ports :
    nextIs (fun t => decide (t.replies = [⟨5, 8⟩])) (exec (.read 5) sparsePage) = true ∧
    nextIs (fun t => decide (t.replies = [⟨8, 0⟩])) (exec (.read 8) sparsePage) = true := by decide

/-- Program P7: RESET in a page emits nothing and discards the buffer. -/
theorem test_reset_open_page :
    nextIs (fun t => decide (t.out = sparsePage.out ∧ t.statusWord = 0 ∧ t.cur = 0 ∧ t.pageIdx = 0))
      (exec .reset (bufferedPage 4)) = true := by decide +kernel

/-- Vector SD-6: the walk of three top groups. -/
theorem test_walk_three_groups :
    (Staging.ofDelta ((List.range 130).map fun i =>
      if i = 0 then 0x01#8 else if i = 7 then 0x02#8 else if i = 70 then 0x04#8 else if i = 129 then 0x08#8 else 0)).walk =
      [0xE0, 0x80, 0x81, 0x01, 0x02, 0x80, 0x02, 0x04, 0x80, 0x40, 0x08] := by decide +kernel

/-! ## Witnesses: the invariant of small states -/

theorem sparsePage_ref : sparsePage.ref = Memory.store [] 0 (List.replicate Config.maxBplDelta 0) :=
  State.openPage_ref State.reset .sparseDelta 64 3 0

theorem sparsePage_ref_read (a : Nat) : sparsePage.ref.read a = if a < 512 then some 0 else none := by
  have e : Config.maxBplDelta = 512 := rfl
  rw [sparsePage_ref, Memory.read_store, List.length_replicate, e]
  by_cases h : a < 512
  · rw [if_pos (by omega), if_pos h, List.getElem?_replicate, if_pos (by omega)]
  · rw [if_neg (by omega), if_neg h]
    rfl

theorem sparsePage_inv : sparsePage.Inv where
  lineWf := by decide
  refWf := by decide +kernel
  cbWf := by decide
  lineBound := fun _ _ => rfl
  refBound := fun a ha => by
    have ha' : 512 ≤ a := ha
    rw [sparsePage_ref_read, if_neg (by omega)]
  cbBound := fun _ _ => rfl
  openWidth := fun _ => by decide
  openHeight := fun _ => by decide
  openBpl := fun _ => by decide
  openBplDirect := fun _ => by decide
  openBplDelta := fun _ _ => by decide
  refWritten := fun _ a ha => by
    rw [sparsePage_ref_read, if_pos ha]
    rfl
  cbWritten := fun a ha => absurd ha (by simp [sparsePage, openedPage])
  directEmpty := fun _ h => absurd rfl h
  countBound := fun _ => by decide
  idleNoRequest := fun h => by cases h
  cancelingRequested := fun h => by cases h
  faultRecord := by decide
  noCapacity := by decide
  pendingPartial := by decide

theorem bufferedPage_holds (n : BitVec 16) : Holds (bufferedPage n).cb 0 (List.replicate n.toNat 0) :=
  Memory.holds_store [] 0 _

theorem bufferedPage_inv (n : BitVec 16) (hn : n.toNat ≤ 65535) : (bufferedPage n).Inv :=
  { sparsePage_inv with
    cbWf := Memory.wf_store (by decide) _ _
    cbBound := fun a ha => by
      have h : (bufferedPage n).cb = Memory.store [] 0 (List.replicate n.toNat 0) := rfl
      have ha' : 65535 ≤ a := ha
      rw [h, Memory.read_store_outside (by simp; omega)]; rfl
    cbWritten := fun a ha => by
      have ha' : a < n.toNat := ha
      have h := bufferedPage_holds n a (by simpa using ha')
      rw [Nat.zero_add] at h
      rw [h]; simp [ha']
    directEmpty := fun _ h => absurd rfl h
    countBound := fun _ => by
      show (((1 : Word).toNat : Nat) : Int) ≤ signedOf (3 : Word)
      decide }

theorem sparsePage_ref_holds : Holds sparsePage.ref 0 (List.replicate 8 0) := by
  intro j hj
  have hj' : j < 8 := by simpa using hj
  rw [sparsePage_ref_read, if_pos (by omega), List.getElem?_replicate, if_pos hj']

/-! ## Witnesses: the hypotheses of the statements -/

/-- FirstFaultConditionIsReported, each condition; ReservedBitsFault, each command. -/
theorem witness_fault_conditions :
    faultOf (.beginPage 1 3 0 0 0) sparsePage = some .reservedBits ∧
    faultOf (.beginPage 0 3 0 0 0) sparsePage = some .illegalMode ∧
    faultOf (.beginPage 0 0 0 0 0) sparsePage = some .stateViolation ∧
    faultOf (.encodeLine 0 0 [] []) State.reset = some .stateViolation ∧
    faultOf (.endPage 0) State.reset = some .stateViolation ∧
    faultOf (.encodeLine 0 1 [0] [0, 0, 0]) sparsePage = some .lineLengthMismatch ∧
    faultOf (.encodeLine 0 1 (List.replicate 8 0) []) sparsePage = some .lineIndexMismatch ∧
    faultOf (.encodeLine 0 3 (List.replicate 8 0) []) { sparsePage with lineCnt := 3 } = some .lineOverrun ∧
    reservedIsSet (.beginPage 1 0 0 0 0) = true ∧ reservedIsSet (.encodeLine 1 0 [] []) = true ∧
    reservedIsSet (.endPage 1) = true ∧ reservedIsSet (.rleEncode 1 0 0) = true := by decide

/-- IllegalHeadWordFaults, OPC 0x00, 0x05 and 0xFF. -/
theorem witness_illegal_head :
    (0x00000000#32).extractLsb' 24 8 ∉ [0x01#8, 0x02#8, 0x03#8, 0x04#8] ∧
    (0x05000000#32).extractLsb' 24 8 ∉ [0x01#8, 0x02#8, 0x03#8, 0x04#8] ∧
    (0xFF000000#32).extractLsb' 24 8 ∉ [0x01#8, 0x02#8, 0x03#8, 0x04#8] ∧
    { State.reset with input := [.word 0#32] }.pending = [] ∧
    { State.reset with input := [.word 0#32] }.input = .word 0#32 :: [] :=
  ⟨by decide, by decide, by decide, rfl, rfl⟩

/-- NoConditionNoFaultRecord. -/
theorem witness_no_condition :
    sparsePage.Inv ∧ Instr.endPage 0 ≠ .reset ∧ faultOf (.endPage 0) sparsePage = none ∧
    answers (exec (.endPage 0) sparsePage) = true := ⟨sparsePage_inv, by decide, by decide, by decide⟩

/-- FaultRecordIsSticky: a state with a fault recorded, and RESET. -/
theorem witness_fault_sticky :
    ((sparsePage.recordFault .illegalMode).fault = false ↔ (sparsePage.recordFault .illegalMode).faultCode = .none) ∧
    (sparsePage.recordFault .illegalMode).fault = true ∧ Instr.endPage 1 ≠ .reset ∧
    answers (exec (.endPage 1) (sparsePage.recordFault .illegalMode)) = true ∧
    answers (exec .reset (sparsePage.recordFault .illegalMode)) = true := by decide

/-- BeginPageStartsPage: the narrowest page, and the widest of each kind of mode (R153). -/
theorem witness_begin_page :
    State.reset.session = .idle ∧ State.reset.cancelLatch = false ∧ 0 < (1 : Word).toInt ∧
    ceilDiv (1 : Word).toNat 8 = 1 ∧ 0 < (524280 : Word).toInt ∧ ceilDiv (524280 : Word).toNat 8 = 65535 ∧
    0 < (4096 : Word).toInt ∧ ceilDiv (4096 : Word).toNat 8 = 512 := by decide

/-- BeginPageRefusedOutcomes: the latch, and each geometry error at its boundary (R153). -/
theorem witness_begin_page_refused :
    State.reset.session = .idle ∧ { State.reset with cancelLatch := true }.cancelLatch = true ∧
    (0 : Word).toInt ≤ 0 ∧ (0xFFFFFFFF : Word).toInt ≤ 0 ∧ 65535 < ceilDiv (524281 : Word).toNat 8 ∧
    512 < ceilDiv (4097 : Word).toNat 8 := by decide

/-- BeginPageFrame. -/
theorem witness_begin_page_frame : answers (exec (.beginPage 0 2 64 3 0) State.reset) = true := by decide

/-- DirectLineIsCopied. -/
theorem witness_direct_line :
    (Instr.encodeLine 0 directPage.lineCnt [0xAB, 0xC0] [0, 0]).wellFormed = true ∧ directPage.session = .active ∧
    directPage.cancelReq = false ∧ directPage.mode ≠ .sparseDelta ∧ [0xAB#8, 0xC0#8].length = directPage.bpl.toNat ∧
    (directPage.lineCnt.toNat : Int) < directPage.height.toInt := by decide

/-- CancelingLineIsDiscarded, both clauses. -/
theorem witness_canceling_line :
    { directPage with session := .canceling }.session = .canceling ∧
    ({ directPage with cancelReq := true }.session = .active ∧ { directPage with cancelReq := true }.cancelReq = true) ∧
    [0xAB#8, 0xC0#8].length = directPage.bpl.toNat := by decide

/-- SparseLineIsAppended, at the boundary of vector CF-3: CUR = 65 524, BPL = 8. -/
theorem witness_sparse_line_fits :
    (bufferedPage 65524).Inv ∧ (bufferedPage 65524).session = .active ∧ (bufferedPage 65524).cancelReq = false ∧
    (bufferedPage 65524).mode = .sparseDelta ∧ (List.replicate 8 (0xFF : Byte)).length = (bufferedPage 65524).bpl.toNat ∧
    (List.replicate 8 (0 : Byte)).length = (bufferedPage 65524).bpl.toNat ∧
    Holds (bufferedPage 65524).ref 0 (List.replicate 8 0) ∧
    ((bufferedPage 65524).lineCnt.toNat : Int) < (bufferedPage 65524).height.toInt ∧
    worstCase (bufferedPage 65524).bpl.toNat ≤ 65535 - (bufferedPage 65524).cur.toNat :=
  ⟨bufferedPage_inv _ (by decide), rfl, rfl, rfl, rfl, rfl, sparsePage_ref_holds,
    (by decide : (((1 : Word).toNat : Nat) : Int) < (3 : Word).toInt), (by decide : worstCase 8 ≤ 65535 - 65524)⟩

/-- SparseLineFlushesFirst, at the boundary of vector CF-4: CUR = 65 525, BPL = 8. -/
theorem witness_sparse_line_flushes :
    (bufferedPage 65525).Inv ∧ (bufferedPage 65525).session = .active ∧ (bufferedPage 65525).cancelReq = false ∧
    (bufferedPage 65525).mode = .sparseDelta ∧ (List.replicate 8 (0xFF : Byte)).length = (bufferedPage 65525).bpl.toNat ∧
    (List.replicate 8 (0 : Byte)).length = (bufferedPage 65525).bpl.toNat ∧
    Holds (bufferedPage 65525).ref 0 (List.replicate 8 0) ∧
    ((bufferedPage 65525).lineCnt.toNat : Int) < (bufferedPage 65525).height.toInt ∧
    65535 - (bufferedPage 65525).cur.toNat < worstCase (bufferedPage 65525).bpl.toNat ∧
    (List.replicate 65525 (0 : Byte)).length = (bufferedPage 65525).cur.toNat ∧
    Holds (bufferedPage 65525).cb 0 (List.replicate 65525 0) :=
  ⟨bufferedPage_inv _ (by decide), rfl, rfl, rfl, rfl, rfl, sparsePage_ref_holds,
    (by decide : (((1 : Word).toNat : Nat) : Int) < (3 : Word).toInt), (by decide : 65535 - 65525 < worstCase 8),
    List.length_replicate, bufferedPage_holds 65525⟩

/-- EncodeLineFrame: a direct line, a SparseDelta line that fits, and the start of one that flushes. -/
theorem witness_encode_line_frame :
    answers (exec (.encodeLine 0 0 [0xAB, 0xC0] [0, 0]) directPage) = true ∧
    answers (exec (.encodeLine 0 0 (List.replicate 8 0xFF) []) sparsePage) = true ∧
    sparsePage.mode = .sparseDelta ∧ directPage.mode ≠ .sparseDelta ∧
    ¬ sparsePage.room < worstCase sparsePage.bpl.toNat := by decide +kernel

/-- DirectModesTreatLinesAlike. -/
theorem witness_direct_modes : (openedPage .directMaskAnd 12 2).mode = .directMaskAnd := by decide

/-- ConfigurationDoesNotReachLines, both clauses. -/
theorem witness_configuration :
    (∃ (r : BitVec 8) (k : Word) (bytes pad : List Byte), Instr.encodeLine 0 0 [] [] = .encodeLine r k bytes pad) ∧
    (∃ (r : BitVec 16) (ch : Byte) (n : Word), Instr.rleEncode 0 0 0 = .rleEncode r ch n) :=
  ⟨⟨0, 0, [], [], rfl⟩, ⟨0, 0, 0, rfl⟩⟩

/-- EndPageClosesPage: an empty buffer, and six bytes. -/
theorem witness_end_page :
    sparsePage.session ≠ .idle ∧ ([] : List Byte).length = sparsePage.cur.toNat ∧ Holds sparsePage.cb 0 [] ∧
    (bufferedPage 6).session ≠ .idle ∧ (List.replicate 6 (0 : Byte)).length = (bufferedPage 6).cur.toNat ∧
    Holds (bufferedPage 6).cb 0 (List.replicate 6 0) :=
  ⟨by decide, rfl, fun _ hj => absurd hj (by simp), by decide, rfl, bufferedPage_holds 6⟩

/-- RleEmitsDecomposition, RunTokensAreGreedy, RleOutputLength: the boundaries 1, 2, 20, 399 and 400. -/
theorem witness_rle :
    (1 : Word).toNat < 2 ∧ 2 ≤ (2 : Word).toNat ∧ 400 ≤ (400 : Word).toNat ∧
    (20 ≤ (20 : Word).toNat ∧ (399 : Word).toNat < 400) ∧ (0 < (1 : Word).toNat ∧ (19 : Word).toNat < 20) ∧
    answers (exec (.rleEncode 0 0x41 450) State.reset) = true := by decide

/-- PresenceBitsNameChildren: the last child of each level (vector SD-5). -/
theorem witness_presence : (7 : Nat) < 8 ∧ (0 : Nat) < 8 := by decide

/-- WalkIsClosedForm, LineLengthIsExact, LineCodeIsDecodable: the longest line and the shortest. -/
theorem witness_line_lengths :
    (List.replicate 512 (0xFF : Byte)).length ≤ 512 ∧ 1 ≤ (List.replicate 1 (0xFF : Byte)).length ∧
    (∀ b ∈ List.replicate 512 (0xFF : Byte), b ≠ 0) ∧
    (List.replicate 512 (0xFF : Byte)).length = (List.replicate 512 (0 : Byte)).length := by
  refine ⟨List.length_replicate.le, by decide, ?_, List.length_replicate.trans List.length_replicate.symm⟩
  intro b hb
  rw [List.eq_of_mem_replicate hb]
  decide

/-- OneChangedByteCostsFour: the last byte of a line of 16 (vector SD-3 has byte 9). -/
theorem witness_one_changed :
    (List.replicate 15 (0 : Byte) ++ [0x3C]).length ≤ 512 ∧ 15 < (List.replicate 15 (0 : Byte) ++ [0x3C]).length ∧
    (List.replicate 15 (0 : Byte) ++ [0x3C]).getD 15 0 ≠ 0 ∧
    ∀ j, j ≠ 15 → (List.replicate 15 (0 : Byte) ++ [0x3C]).getD j 0 = 0 := by
  refine ⟨by decide, by decide, by decide, fun j hj => ?_⟩
  by_cases h : j < 15
  · rw [List.getD_append _ _ _ _ (by simpa using h), List.getD_replicate _ h]
  · rw [List.getD_append_right _ _ _ _ (by simp; omega)]
    have e : j - 15 = (j - 16) + 1 := by omega
    simp [e]

/-- WorstCaseBoundHolds: the ends of the range, from the table of 95_test_vectors.md L2.2. -/
theorem witness_bounds :
    lineMax 1 = 4 ∧ worstCase 1 = 4 ∧ lineMax 9 = 13 ∧ worstCase 9 = 15 ∧ lineMax 512 = 585 ∧ worstCase 512 = 704 := by
  decide

/-- AppendBytesIsTheLoop, PreCheckLeavesRoom, EmptyBufferIsNotFlushed. -/
theorem witness_framer :
    sparsePage.cb.wf = true ∧ (8 : Nat) ≤ 512 ∧ sparsePage.preCheck 8 0 = .done sparsePage ∧ sparsePage.cur = 0 := by
  decide +kernel

/-- DecodeOfEncode and StepRunsTheCommand: each command. -/
theorem witness_commands :
    ((Instr.beginPage 0 2 64 3 0).wellFormed = true ∧ (Instr.beginPage 0 2 64 3 0).isCommand = true) ∧
    ((Instr.encodeLine 0 0 [0xAB] [0, 0, 0]).wellFormed = true ∧ (Instr.encodeLine 0 0 [0xAB] [0, 0, 0]).isCommand = true) ∧
    ((Instr.endPage 0).wellFormed = true ∧ (Instr.endPage 0).isCommand = true) ∧
    ((Instr.rleEncode 0 0x41 2).wellFormed = true ∧ (Instr.rleEncode 0 0x41 2).isCommand = true) ∧
    [0x04000041#32] ++ [2#32] = encode (.rleEncode 0 0x41 2) := by decide

/-- CommandLengthFromHead: one word short, just enough, and an illegal head word. -/
theorem witness_command_length :
    [0#32, 0#32].length + 1 < commandLength 0x01000000#32 ∧ commandLength 0x01000000#32 ≤ [0#32, 0#32, 0#32].length + 1 ∧
    commandLength 0x02000005#32 = 4 ∧ commandLength 0x02000000#32 = 2 ∧ commandLength 0xFF000000#32 = 1 := by decide

/-- PayloadPacking and EncodeOfDecode: a line whose last word has pad bytes. -/
theorem witness_payload :
    decode (0x02000005#32 :: 0#32 :: [0x11223344#32, 0x55000000#32]) =
      .command (.encodeLine 0 0 [0x11, 0x22, 0x33, 0x44, 0x55] [0, 0, 0]) [] := by decide

/-- StepRunsTheCommand, CancelAmongWordsActsBefore: a command split between received and arriving words. -/
theorem witness_step_command :
    { State.reset with pending := [0x04000041#32], input := [.word 2#32] }.pending ++ [2#32] =
      encode (.rleEncode 0 0x41 2) ∧
    { State.reset with pending := [0x04000041#32], input := [.word 2#32] }.input = [2#32].map Input.word ++ [] ∧
    [2#32] ≠ [] ∧ State.reset.pending = [] := by decide

/-- StepRunsTheEvent, each event, and StepWaitsForWords: one word of a command received. -/
theorem witness_step_event :
    decode ({ State.reset with input := [] }.pending ++ [0x04000041#32]) = .incomplete ∧
    { State.reset with input := [.word 0x04000041, .cancel] }.input = [0x04000041#32].map Input.word ++ .cancel :: [] ∧
    { State.reset with input := [.word 0x04000041, .reset] }.input = [0x04000041#32].map Input.word ++ .reset :: [] ∧
    { State.reset with input := [.word 0x04000041, .read 0] }.input = [0x04000041#32].map Input.word ++ .read 0 :: [] ∧
    { State.reset with input := [.word 0x04000041] }.input = [0x04000041#32].map Input.word := by decide

/-- SessionTransitions: each transition of R34. -/
theorem witness_transitions :
    (State.reset.session = .idle ∧
      nextIs (fun t => decide (t.session ≠ .idle)) (exec (.beginPage 0 2 64 3 0) State.reset) = true) ∧
    (sparsePage.session = .active ∧ nextIs (fun t => decide (t.session = .canceling))
      (exec (.encodeLine 0 0 (List.replicate 8 0) []) { sparsePage with cancelReq := true }) = true) ∧
    ({ sparsePage with session := .canceling, cancelReq := true }.session = .canceling ∧
      nextIs (fun t => decide (t.session = .idle))
        (exec (.endPage 0) { sparsePage with session := .canceling, cancelReq := true }) = true) ∧
    nextIs (fun t => decide (t.session = .idle)) (exec .reset sparsePage) = true := by decide

/-- PageParametersAreImmutable, both clauses; CancelLatchStopsPages. -/
theorem witness_page_parameters :
    (answers (exec (.beginPage 0 0 8 1 0) sparsePage) = true ∧ sparsePage.session ≠ .idle) ∧
    nextIs (fun t => decide (t.session = .idle))
      (exec (.beginPage 0 2 64 3 0) { State.reset with cancelLatch := true }) = true ∧
    { State.reset with cancelLatch := true }.cancelLatch = true ∧ Instr.beginPage 0 2 64 3 0 ≠ .reset := by decide

/-- NonStoringOperationsFrame: each operation. -/
theorem witness_non_storing :
    answers (exec (.endPage 0) sparsePage) = true ∧ answers (exec (.rleEncode 0 0 0) sparsePage) = true ∧
    answers (exec .cancel sparsePage) = true ∧ answers (exec (.read 0) sparsePage) = true := by decide

/-- OutIsAppendOnly, StepKeepsInvariant, StepAlwaysAnswers, FramesStayWhole: END_PAGE next on CMD. -/
theorem witness_step_invariant :
    { sparsePage with input := [.word 0x03000000] }.Inv ∧
    framesWhole { sparsePage with input := [.word 0x03000000] }.out = true ∧
    answers (step { sparsePage with input := [.word 0x03000000] }) = true :=
  ⟨{ sparsePage_inv with }, by decide, by decide⟩

/-- BufferKeepsWholeLines: the page of P1 just opened. -/
theorem witness_buffer :
    sparsePage.Inv ∧ sparsePage.BuffersWholeLines ∧ answers (step sparsePage) = true :=
  ⟨sparsePage_inv, fun _ _ => ⟨[], by decide, by simp, by decide, fun _ hj => absurd hj (by simp)⟩, by decide⟩

/-- R185: a REG read that is left does not keep a run from being finished; a word, a CANCEL, a RESET and a partially
received command each do. -/
theorem test_finished :
    { State.reset with input := [.read 0, .read 8] }.finished = true ∧
    { State.reset with input := [.read 0] }.clean = true ∧
    { State.reset with input := [.read 0, .word 0] }.finished = false ∧
    { State.reset with input := [.cancel] }.finished = false ∧
    { State.reset with input := [.reset] }.finished = false ∧
    { State.reset with pending := [0x01000000] }.finished = false := by decide

/-- FinishedRunKeepsObservation: with a REG read left, and with nothing left; clean, and not clean in an open page. -/
theorem witness_finished :
    { State.reset with input := [.read 0] }.finished = true ∧ State.reset.finished = true ∧
    State.reset.clean = true ∧ sparsePage.finished = true ∧ sparsePage.clean = false := by decide

end Sys2Proof.Tests
end

section
namespace Sys2Proof.Machine

/-! ## How long the code of a line can be (42_sparse_delta.md R245, R246) -/

/-- Consecutive parts that each fit between two marks fit together between the first mark and the last. -/
theorem length_flatMap_range_le {α : Type} (part : Nat → List α) (mark : Nat → Nat) (k : Nat)
    (hpart : ∀ i < k, (part i).length + mark i ≤ mark (i + 1)) :
    ((List.range k).flatMap part).length + mark 0 ≤ mark k := by
  induction k with
  | zero => simp
  | succ k ih =>
    have hinit := ih fun i hi => hpart i (by omega)
    have hlast := hpart k (by omega)
    rw [List.range_succ, List.flatMap_append, List.length_append, List.flatMap_singleton]
    omega

@[simp] theorem nonZero_zero : nonZero 0 = [] := rfl

theorem length_nonZero_le (b : Byte) : (nonZero b).length ≤ 1 := by
  unfold nonZero; split <;> simp

/-- The presence byte of a group without present children is 0. -/
theorem presence_eq_zero {present : Nat → Bool} (h : ∀ j < 8, present j = false) : presence present = 0 := by
  have hrange : List.range 8 = [0, 1, 2, 3, 4, 5, 6, 7] := rfl
  simp [presence, hrange, h]

/-- A position past the end of the delta counts as 0. -/
theorem slotByte_eq_zero {delta : List Byte} {t s j : Nat} (h : delta.length ≤ 64 * t + 8 * s + j) :
    slotByte delta t s j = 0 :=
  List.getD_eq_default _ _ h

/-- The leaf byte of a sub-group past the end of the delta is 0. -/
theorem leafByte_eq_zero {delta : List Byte} {t s : Nat} (h : delta.length ≤ 64 * t + 8 * s) :
    leafByte delta t s = 0 :=
  presence_eq_zero fun j _ => by simp [slotByte_eq_zero (j := j) (Nat.le_add_right_of_le h)]

theorem Staging.ofDelta_leaf (delta : List Byte) {t s : Nat} (ht : t < 8) (hs : s < 8) :
    ((Staging.ofDelta delta).leaf.getD t []).getD s 0 = leafByte delta t s := by
  simp [Staging.ofDelta, ht, hs]

theorem Staging.ofDelta_mid (delta : List Byte) {t : Nat} (ht : t < 8) :
    (Staging.ofDelta delta).mid.getD t 0 =
      presence fun s => ((Staging.ofDelta delta).leaf.getD t []).getD s 0 != 0 := by
  simp [Staging.ofDelta, ht]

/-- The mid byte of a top group past the end of the delta is 0. -/
theorem Staging.ofDelta_mid_eq_zero {delta : List Byte} {t : Nat} (ht : t < 8) (h : delta.length ≤ 64 * t) :
    (Staging.ofDelta delta).mid.getD t 0 = 0 := by
  rw [Staging.ofDelta_mid delta ht]
  exact presence_eq_zero fun s hs => by
    rw [Staging.ofDelta_leaf delta ht hs, leafByte_eq_zero (Nat.le_add_right_of_le h)]; rfl

/-- The most delta and leaf bytes that the positions below `a` of an `n`-byte line can append. -/
def leafBound (n a : Nat) : Nat := min n a + ceilDiv (min n a) 8

/-- The most delta, leaf and mid bytes that the positions below `a` of an `n`-byte line can append. -/
def midBound (n a : Nat) : Nat := leafBound n a + ceilDiv (min n a) 64

/-- The walk of a sub-group appends at most its delta bytes and a leaf byte. -/
theorem Staging.length_walkLeaf_le (delta : List Byte) {t s : Nat} (ht : t < 8) (hs : s < 8) :
    ((Staging.ofDelta delta).walkLeaf t s).length + leafBound delta.length (64 * t + 8 * s) ≤
      leafBound delta.length (64 * t + 8 * (s + 1)) := by
  have hbytes := length_flatMap_range_le (fun j => nonZero (slotByte delta t s j))
    (fun j => min delta.length (64 * t + 8 * s + j)) 8 fun j _ => by
      by_cases hj : 64 * t + 8 * s + j < delta.length
      · have := length_nonZero_le (slotByte delta t s j)
        omega
      · rw [slotByte_eq_zero (not_lt.1 hj), nonZero_zero, List.length_nil]
        omega
  have hleaf : (nonZero (leafByte delta t s)).length ≤ if 64 * t + 8 * s < delta.length then 1 else 0 := by
    split
    · exact length_nonZero_le _
    · rw [leafByte_eq_zero (by omega), nonZero_zero, List.length_nil]
  rw [Staging.walkLeaf, Staging.ofDelta_leaf delta ht hs, List.length_append]
  change _ + ((List.range 8).flatMap fun j => nonZero (slotByte delta t s j)).length + _ ≤ _
  simp only [leafBound, ceilDiv] at hbytes hleaf ⊢
  split at hleaf <;> omega

/-- The walk of a top group appends at most its delta bytes, its leaf bytes and a mid byte. -/
theorem Staging.length_walkMid_le (delta : List Byte) {t : Nat} (ht : t < 8) :
    ((Staging.ofDelta delta).walkMid t).length + midBound delta.length (64 * t) ≤
      midBound delta.length (64 * (t + 1)) := by
  have hgroups := length_flatMap_range_le (fun s => (Staging.ofDelta delta).walkLeaf t s)
    (fun s => leafBound delta.length (64 * t + 8 * s)) 8 fun s hs => Staging.length_walkLeaf_le delta ht hs
  have hmid : (nonZero ((Staging.ofDelta delta).mid.getD t 0)).length ≤
      if 64 * t < delta.length then 1 else 0 := by
    split
    · exact length_nonZero_le _
    · rw [Staging.ofDelta_mid_eq_zero ht (by omega), nonZero_zero, List.length_nil]
  rw [Staging.walkMid, List.length_append]
  simp only [midBound, leafBound, ceilDiv] at hgroups hmid ⊢
  split at hmid <;> omega

/-- A line appends at most `Lmax` bytes (R245). -/
theorem Staging.length_walk_le_lineMax (delta : List Byte) :
    (Staging.ofDelta delta).walk.length ≤ lineMax delta.length := by
  have hgroups := length_flatMap_range_le (fun t => (Staging.ofDelta delta).walkMid t)
    (fun t => midBound delta.length (64 * t)) 8 fun t ht => Staging.length_walkMid_le delta ht
  have htop : (Staging.ofDelta delta).walk.length ≤
      1 + ((List.range 8).flatMap fun t => (Staging.ofDelta delta).walkMid t).length := by
    rw [Staging.walk, List.length_cons]
    split <;> simp
  simp only [midBound, leafBound, lineMax, ceilDiv] at hgroups ⊢
  omega

/-- `Lmax` is within the bound of the pre-check (R246). -/
theorem lineMax_le_worstCase {n : Nat} (h : 1 ≤ n) : lineMax n ≤ worstCase n := by
  simp only [lineMax, worstCase, ceilDiv]
  omega

end Sys2Proof.Machine
end

section
namespace Sys2Proof.Machine

/-! ## The invariant of R54 and R56: one lemma per update of the state -/

theorem State.reset_inv : State.reset.Inv where
  lineWf := State.reset_memories_wf.1
  refWf := State.reset_memories_wf.2.1
  cbWf := State.reset_memories_wf.2.2
  lineBound := fun _ _ => rfl
  refBound := fun _ _ => rfl
  cbBound := fun _ _ => rfl
  openWidth := fun h => absurd rfl h
  openHeight := fun h => absurd rfl h
  openBpl := fun h => absurd rfl h
  openBplDirect := fun h => absurd rfl h
  openBplDelta := fun h => absurd rfl h
  refWritten := fun h => absurd rfl h
  cbWritten := fun _ ha => absurd ha (Nat.not_lt_zero _)
  directEmpty := fun _ _ => rfl
  countBound := fun h => absurd rfl h
  idleNoRequest := fun _ => rfl
  cancelingRequested := fun h => nomatch h
  faultRecord := by decide
  noCapacity := by decide
  pendingPartial := rfl

section Updates

variable {s t : State}

theorem State.Inv.hardReset (s : State) : s.hardReset.Inv :=
  { State.reset_inv with }

/-- Receiving words that are no whole command. -/
theorem State.Inv.receive (h : s.Inv) {p : List Word} (hp : decode p = .incomplete) (inp : List Input) (pos : Nat) :
    { s with pending := p, input := inp, cmdPos := pos }.Inv :=
  { h with pendingPartial := hp }

theorem State.Inv.recordFault (h : s.Inv) {c : FaultCode} (hnone : c ≠ .none) (hcap : c ≠ .capacity) :
    (s.recordFault c).Inv :=
  { h with
    faultRecord := by rw [State.recordFault_faultCode]; split <;> simp [*]
    noCapacity := by
      rw [State.recordFault_faultCode]
      split
      · exact hcap
      · exact h.noCapacity }

theorem State.Inv.refusePage (h : s.Inv) (r : BeginResult) : (s.refusePage r).Inv :=
  { h with }

theorem State.Inv.emit (h : s.Inv) (items : List Item) : (s.emit items).Inv :=
  { h with }

theorem State.Inv.reply (h : s.Inv) (index : Nat) (value : Word) : (s.reply index value).Inv :=
  { h with }

theorem State.Inv.openPage (h : s.Inv) {m : GraphicsMode} {width height : Word} (cfg : Word)
    (hgeo : geometryError m width height = false) : (s.openPage m width height cfg).Inv := by
  obtain ⟨hw, hh, hdirect, hdelta⟩ := (geometryError_eq_false_iff m width height).1 hgeo
  have hbpl : (s.openPage m width height cfg).bpl.toNat = bytesPerLine width := bytesPerLine_register hgeo
  exact
    { h with
      refWf := Memory.wf_store h.refWf _ _
      refBound := fun a ha => by
        have ha' : ¬ a < 512 := Nat.not_lt.2 ha
        rw [State.openPage_ref_read, if_neg ha']
        exact h.refBound a ha
      openWidth := fun _ => hw
      openHeight := fun _ => hh
      openBpl := fun _ => hbpl
      openBplDirect := fun _ => hbpl ▸ hdirect
      openBplDelta := fun _ hm => hbpl ▸ hdelta hm
      refWritten := fun _ a ha => by rw [State.openPage_ref_read, if_pos ha]; rfl
      cbWritten := fun _ ha => absurd ha (Nat.not_lt_zero _)
      directEmpty := fun _ _ => rfl
      countBound := fun _ => le_of_lt hh
      idleNoRequest := fun hs => nomatch hs
      cancelingRequested := fun hs => nomatch hs }

/-- A line or END_PAGE makes STATE Canceling (R157, R166). -/
theorem State.Inv.toCanceling (h : s.Inv) (hs : s.session ≠ .idle) (hc : s.cancelReq = true) :
    { s with session := .canceling }.Inv :=
  { h with
    openWidth := fun _ => h.openWidth hs
    openHeight := fun _ => h.openHeight hs
    openBpl := fun _ => h.openBpl hs
    openBplDirect := fun _ => h.openBplDirect hs
    openBplDelta := fun _ => h.openBplDelta hs
    refWritten := fun _ => h.refWritten hs
    directEmpty := fun _ => h.directEmpty hs
    countBound := fun _ => h.countBound hs
    idleNoRequest := fun hi => nomatch hi
    cancelingRequested := fun _ => hc }

theorem State.Inv.requestCancel (h : s.Inv) (hs : s.session ≠ .idle) : { s with cancelReq := true }.Inv :=
  { h with
    idleNoRequest := fun hi => absurd hi hs
    cancelingRequested := fun _ => rfl }

/-- A line is canceled only if a request stands (R157). -/
theorem State.Inv.cancelReq_of_canceling (h : s.Inv) (hc : s.canceling = true) : s.cancelReq = true := by
  rw [State.canceling, Bool.or_eq_true, decide_eq_true_eq] at hc
  exact hc.elim h.cancelingRequested id

theorem State.Inv.sampleCancel (h : s.Inv) (hs : s.session ≠ .idle) : s.sampleCancel.Inv := by
  rw [State.sampleCancel]
  split
  next hc => exact h.toCanceling hs hc
  next => exact h

/-- A flush empties the buffer (R278). -/
theorem State.Inv.emptyBuffer (h : s.Inv) (k : Word) : { s with cur := 0, mark := k }.Inv :=
  { h with
    cbWritten := fun _ ha => absurd ha (Nat.not_lt_zero _)
    directEmpty := fun _ _ => rfl }

/-- What the invariant says of an open page holds vacuously in Idle. -/
theorem State.Inv.toIdle (h : s.Inv) : { s with session := .idle, cancelReq := false }.Inv :=
  { h with
    openWidth := fun hs => absurd rfl hs
    openHeight := fun hs => absurd rfl hs
    openBpl := fun hs => absurd rfl hs
    openBplDirect := fun hs => absurd rfl hs
    openBplDelta := fun hs => absurd rfl hs
    refWritten := fun hs => absurd rfl hs
    directEmpty := fun hs => absurd rfl hs
    countBound := fun hs => absurd rfl hs
    idleNoRequest := fun _ => rfl
    cancelingRequested := fun hc => nomatch hc }

theorem State.Inv.closePage (h : s.Inv) : s.closePage.Inv := by
  rw [State.closePage]
  split
  · exact { h.toIdle with }
  · exact { h.toIdle with }

/-- A store inside a memory leaves the addresses outside it without a value. -/
theorem Memory.read_store_bound {m : Memory} {size a : Nat} {bs : List Byte} (hm : ∀ x, size ≤ x → m.read x = none)
    (hfit : a + bs.length ≤ size) : ∀ x, size ≤ x → (m.store a bs).read x = none := fun x hx => by
  rw [Memory.read_store_outside (.inr (hfit.trans hx))]
  exact hm x hx

/-- A store takes no value away. -/
theorem Memory.read_store_isSome {m : Memory} {a x : Nat} {bs : List Byte}
    (h : (a ≤ x ∧ x < a + bs.length) ∨ (m.read x).isSome) : ((m.store a bs).read x).isSome := by
  rw [Memory.read_store]
  split
  next hin => rw [List.getElem?_eq_getElem (by omega)]; rfl
  next hout => exact h.resolve_left hout

/-- LINE takes a scanline (R158). -/
theorem State.Inv.storeLine (h : s.Inv) {bytes : List Byte} (hfit : bytes.length ≤ 65535) :
    { s with line := s.line.store 0 bytes }.Inv :=
  { h with
    lineWf := Memory.wf_store h.lineWf _ _
    lineBound := Memory.read_store_bound h.lineBound (by rw [Nat.zero_add]; exact hfit) }

/-- REF takes a scanline (R242). -/
theorem State.Inv.storeRef (h : s.Inv) {bytes : List Byte} (hfit : bytes.length ≤ 512) :
    { s with ref := s.ref.store 0 bytes }.Inv :=
  { h with
    refWf := Memory.wf_store h.refWf _ _
    refBound := Memory.read_store_bound h.refBound (by rw [Nat.zero_add]; exact hfit)
    refWritten := fun hs a ha => Memory.read_store_isSome (.inr (h.refWritten hs a ha)) }

theorem State.Inv.setStaging (h : s.Inv) (g : Staging) : { s with staging := g }.Inv :=
  { h with }

/-- CB takes a line's code that fits, in SparseDelta mode (R241, R274). -/
theorem State.Inv.appendCode (h : s.Inv) (hm : s.mode = .sparseDelta) {bs : List Byte} (hfit : bs.length ≤ s.room) :
    { s with cb := s.cb.store s.cur.toNat bs, cur := s.cur + BitVec.ofNat 16 bs.length }.Inv :=
  { h with
    cbWf := Memory.wf_store h.cbWf _ _
    cbBound := Memory.read_store_bound h.cbBound (by
      have := s.cur.isLt
      rw [State.room_eq] at hfit
      simp only [Config.cbCap]
      omega)
    cbWritten := fun a ha => Memory.read_store_isSome (by
      rw [State.cur_add s hfit] at ha
      by_cases hlt : a < s.cur.toNat
      · exact .inr (h.cbWritten a hlt)
      · exact .inl ⟨not_lt.1 hlt, ha⟩)
    directEmpty := fun _ hd => absurd hm hd }

/-- A line within HEIGHT is counted (R158). -/
theorem State.Inv.countLine (h : s.Inv) (hlt : (s.lineCnt.toNat : Int) < s.height.toInt) : s.countLine.Inv :=
  { h with
    countBound := fun _ => by
      have hheight : s.height.toInt < 2 ^ 31 := s.height.toInt_lt
      have hcount : (s.lineCnt + 1).toNat = s.lineCnt.toNat + 1 := by
        rw [BitVec.toNat_add]
        exact Nat.mod_eq_of_lt (by simp; omega)
      change ((s.lineCnt + 1).toNat : Int) ≤ s.height.toInt
      omega }

/-! ## The invariant: the steps of a line and the operations -/

theorem State.Inv.preCheck (h : s.Inv) {n : Nat} {k : Word} (hp : s.preCheck n k = .done t) : t.Inv := by
  rcases State.preCheck_done_cases hp with ⟨rfl, -⟩ | ⟨-, -, payload, -, -, rfl⟩
  · exact h
  · exact (h.emit _).emptyBuffer k

theorem State.Inv.finalFlush (h : s.Inv) (hf : s.finalFlush = .done t) : t.Inv := by
  rcases State.finalFlush_done_cases hf with ⟨rfl, -⟩ | ⟨-, -, payload, -, -, rfl⟩
  · exact h
  · exact (h.emit _).emptyBuffer 0

/-- After the pre-check the worst case of a line fits the room left (R283). -/
theorem State.preCheck_done_room {n : Nat} {k : Word} (hn : n ≤ 512) (hp : s.preCheck n k = .done t) :
    worstCase n ≤ t.room := by
  have hempty : t.cur = 0 → worstCase n ≤ t.room := fun h0 => by
    have hcur : t.cur.toNat = 0 := by rw [h0]; rfl
    rw [State.room_eq, hcur]
    simp only [worstCase, ceilDiv]
    omega
  rcases State.preCheck_done_cases hp with ⟨rfl, hfit | h0⟩ | ⟨-, -, payload, -, -, rfl⟩
  · exact hfit
  · exact hempty h0
  · exact hempty rfl

/-- After the pre-check the code of a line fits the room left, so that CAPACITY is unreachable (R283). -/
theorem State.walk_fits_preCheck {k : Word} {bytes ref : List Byte} (hpos : 1 ≤ bytes.length)
    (hdelta : bytes.length ≤ 512) (hr : ref.length = bytes.length) (hp : s.preCheck bytes.length k = .done t) :
    (Staging.ofDelta (deltaOf bytes ref)).walk.length ≤ t.room := by
  have hlen : (deltaOf bytes ref).length = bytes.length := by simp [deltaOf, hr]
  calc (Staging.ofDelta (deltaOf bytes ref)).walk.length
      ≤ lineMax bytes.length := hlen ▸ Staging.length_walk_le_lineMax (deltaOf bytes ref)
    _ ≤ worstCase bytes.length := lineMax_le_worstCase hpos
    _ ≤ t.room := State.preCheck_done_room hdelta hp

/-- A line of an open page has at least one byte (R54, item 2). -/
theorem State.Inv.one_le_bpl (h : s.Inv) (hs : s.session ≠ .idle) : 1 ≤ s.bpl.toNat := by
  have hw : 1 ≤ s.width.toInt := h.openWidth hs
  have hpos : 1 ≤ s.width.toNat := by
    rw [BitVec.toInt_eq_toNat_cond] at hw
    split at hw <;> omega
  rw [h.openBpl hs, ceilDiv]
  omega

theorem State.Inv.encodeScanline (h : s.Inv) {k : Word} {bytes : List Byte} (hs : s.session ≠ .idle)
    (hl : bytes.length = s.bpl.toNat) (hlt : (s.lineCnt.toNat : Int) < s.height.toInt)
    (hx : (s.encodeScanline k bytes).outcome = .next t) : t.Inv := by
  obtain ⟨hfit, ⟨-, rfl⟩ | ⟨hm, hdelta, u, ref, hu, hr, -, hcode⟩⟩ := State.encodeScanline_next_cases hl hx
  · exact ((h.storeLine hfit).emit (bytes.map .byte)).countLine hlt
  · have huinv : u.Inv := (h.storeLine hfit).preCheck hu
    obtain ⟨-, ⟨hmode, -, hheight, -, -⟩, hcount, -⟩ := State.preCheck_done_frame hu
    have hwalk := State.walk_fits_preCheck (hl ▸ h.one_le_bpl hs) hdelta hr (hl ▸ hu)
    rcases hcode with ⟨-, rfl⟩ | ⟨hfull, -⟩
    · rw [← hcount, ← hheight] at hlt
      have happended := (huinv.setStaging (Staging.ofDelta (deltaOf bytes ref))).appendCode (hmode.trans hm) hwalk
      exact (happended.storeRef hdelta).countLine hlt
    · exact absurd hfull (Nat.not_lt.2 hwalk)

/-- Every operation keeps the invariant. -/
theorem exec_keeps_inv {i : Instr} (h : s.Inv) (hx : exec i s = .next t) : t.Inv := by
  cases i with
  | beginPage =>
    rcases exec_beginPage_cases hx with ⟨c, hnone, hcap, rfl, -⟩ | ⟨r, rfl, -⟩ | ⟨m, -, -, -, -, hgeo, rfl⟩
    · exact h.recordFault hnone hcap
    · exact h.refusePage r
    · exact h.openPage _ hgeo
  | encodeLine =>
    rcases exec_encodeLine_cases hx with ⟨c, hnone, hcap, rfl⟩ | ⟨-, hs, -, hc, rfl⟩ | ⟨-, hs, hl, -, -, hlt, hx⟩
    · exact h.recordFault hnone hcap
    · exact h.toCanceling hs (h.cancelReq_of_canceling hc)
    · exact h.encodeScanline (by simp [hs]) hl hlt hx
  | endPage =>
    rcases exec_endPage_cases hx with ⟨c, hnone, hcap, rfl⟩ | ⟨-, hs, u, hu, rfl⟩
    · exact h.recordFault hnone hcap
    · exact ((h.sampleCancel hs).finalFlush hu).closePage
  | rleEncode =>
    rcases exec_rleEncode_cases hx with ⟨rfl, -⟩ | ⟨-, rfl⟩
    · exact h.recordFault (by simp) (by simp)
    · exact h.emit _
  | cancel =>
    rw [exec_cancel_eq] at hx
    cases hx
    split
    next => exact { h with }
    next hs => exact h.requestCancel hs
  | read index => cases hx; exact h.reply _ _
  | reset => cases hx; exact State.Inv.hardReset s

/-- Every step keeps the invariant. -/
theorem step_keeps_inv (h : s.Inv) (hx : step s = .next t) : t.Inv := by
  obtain ⟨p, inp, pos, hp, hcases⟩ := step_cases s
  have hrec := h.receive (hp h.pendingPartial) inp pos
  rcases hcases with ⟨i, hi⟩ | hi | hi <;> rw [hi] at hx
  · exact exec_keeps_inv hrec hx
  · cases hx; exact hrec.recordFault (by simp) (by simp)
  · cases hx; exact hrec

end Updates

/-- Settles O50: no page is open, and nothing is stored, recorded or received. -/
theorem invariantHoldsAtReset : Obligations.InvariantHoldsAtReset :=
  State.reset_inv

/-- Settles O51: receiving words keeps the invariant, and so does every operation. -/
theorem stepKeepsInvariant : Obligations.StepKeepsInvariant :=
  fun _ _ => step_keeps_inv

end Sys2Proof.Machine
end

section
namespace Sys2Proof.Machine

/-! ## What every operation but RESET and the start of a page keeps -/

/-- `t` comes after `s` with the page's parameters, PAGE_IDX and a set latch kept, and OUT at most appended to. -/
structure State.Continues (s t : State) : Prop where
  page : SamePage s t
  index : t.pageIdx = s.pageIdx
  latch : s.cancelLatch = true → t.cancelLatch = true
  out : s.out <+: t.out

section Continues

variable {s t : State}

theorem State.Continues.refl (s : State) : s.Continues s :=
  ⟨⟨rfl, rfl, rfl, rfl, rfl⟩, rfl, id, List.prefix_rfl⟩

theorem State.Continues.trans {u : State} (hst : s.Continues t) (htu : t.Continues u) : s.Continues u where
  page := by
    obtain ⟨hm, hw, hh, hb, hc⟩ := hst.page
    obtain ⟨hm', hw', hh', hb', hc'⟩ := htu.page
    exact ⟨hm'.trans hm, hw'.trans hw, hh'.trans hh, hb'.trans hb, hc'.trans hc⟩
  index := htu.index.trans hst.index
  latch := htu.latch ∘ hst.latch
  out := hst.out.trans htu.out

theorem State.continues_recordFault (s : State) (c : FaultCode) : s.Continues (s.recordFault c) :=
  { State.Continues.refl s with }

theorem State.continues_refusePage (s : State) (r : BeginResult) : s.Continues (s.refusePage r) :=
  { State.Continues.refl s with }

theorem State.continues_emit (s : State) (items : List Item) : s.Continues (s.emit items) :=
  { State.Continues.refl s with out := List.prefix_append _ _ }

theorem State.continues_reply (s : State) (index : Nat) (value : Word) : s.Continues (s.reply index value) :=
  { State.Continues.refl s with }

theorem State.continues_sampleCancel (s : State) : s.Continues s.sampleCancel := by
  rw [State.sampleCancel]
  split
  · exact { State.Continues.refl s with }
  · exact .refl s

theorem State.continues_closePage (s : State) : s.Continues s.closePage where
  page := by simp [SamePage]
  index := State.closePage_pageIdx s
  latch := fun h => by
    rw [State.closePage]
    split
    · rfl
    · exact h
  out := by simp

theorem State.continues_preCheck {n : Nat} {k : Word} (h : s.preCheck n k = .done t) : s.Continues t := by
  rcases State.preCheck_done_cases h with ⟨rfl, -⟩ | ⟨-, -, payload, -, -, rfl⟩
  · exact .refl _
  · exact { State.continues_emit s _ with }

theorem State.continues_finalFlush (h : s.finalFlush = .done t) : s.Continues t := by
  rcases State.finalFlush_done_cases h with ⟨rfl, -⟩ | ⟨-, -, payload, -, -, rfl⟩
  · exact .refl _
  · exact { State.continues_emit s _ with }

/-- A line that is not canceled, in either kind of mode. -/
theorem State.encodeScanline_continues {k : Word} {bytes : List Byte} (hl : bytes.length = s.bpl.toNat)
    (h : (s.encodeScanline k bytes).outcome = .next t) : s.Continues t ∧ t.session = s.session := by
  obtain ⟨-, ⟨-, rfl⟩ | ⟨-, -, u, ref, hu, -, -, hcode⟩⟩ := State.encodeScanline_next_cases hl h
  · exact ⟨{ State.continues_emit s (bytes.map .byte) with }, rfl⟩
  · have hsu : s.Continues u := { State.continues_preCheck hu with }
    have hsession : u.session = s.session := (State.preCheck_done_frame hu).1
    rcases hcode with ⟨-, rfl⟩ | ⟨-, rfl⟩
    · exact ⟨{ hsu with }, hsession⟩
    · exact ⟨{ hsu with }, hsession⟩

/-- Everything an operation but RESET can do to the page: it goes on, or BEGIN_PAGE starts one. -/
theorem exec_page_cases {i : Instr} (h : exec i s = .next t) (hreset : i ≠ .reset) :
    s.Continues t ∨
      ∃ m width height cfg, s.session = .idle ∧ s.cancelLatch = false ∧ t = s.openPage m width height cfg := by
  cases i with
  | beginPage r mode width height cfg =>
    rcases exec_beginPage_cases h with ⟨c, -, -, rfl, -⟩ | ⟨r, rfl, -⟩ | ⟨m, -, -, hidle, hlatch, -, rfl⟩
    · exact .inl (s.continues_recordFault c)
    · exact .inl (s.continues_refusePage r)
    · exact .inr ⟨m, width, height, cfg, hidle, hlatch, rfl⟩
  | encodeLine =>
    rcases exec_encodeLine_cases h with ⟨c, -, -, rfl⟩ | ⟨-, -, -, -, rfl⟩ | ⟨-, -, hl, -, -, -, hx⟩
    · exact .inl (s.continues_recordFault c)
    · exact .inl { State.Continues.refl s with }
    · exact .inl (State.encodeScanline_continues hl hx).1
  | endPage =>
    rcases exec_endPage_cases h with ⟨c, -, -, rfl⟩ | ⟨-, -, u, hu, rfl⟩
    · exact .inl (s.continues_recordFault c)
    · exact .inl ((s.continues_sampleCancel.trans (State.continues_finalFlush hu)).trans u.continues_closePage)
  | rleEncode =>
    rcases exec_rleEncode_cases h with ⟨rfl, -⟩ | ⟨-, rfl⟩
    · exact .inl (s.continues_recordFault _)
    · exact .inl (s.continues_emit _)
  | cancel =>
    rw [exec_cancel_eq] at h
    cases h
    left
    split
    · exact { State.Continues.refl s with latch := fun _ => rfl }
    · exact { State.Continues.refl s with }
  | read index => cases h; exact .inl (s.continues_reply _ _)
  | reset => exact absurd rfl hreset

/-- Everything an operation can do to STATE (R34): keep it, or change it by BEGIN_PAGE, by ENCODE_LINE, or by RESET
and END_PAGE. -/
theorem exec_session_cases {i : Instr} (h : exec i s = .next t) :
    t.session = s.session ∨
    ((∃ r m width height cfg, i = .beginPage r m width height cfg) ∧ s.session = .idle ∧ s.cancelLatch = false ∧
      t.session = .active) ∨
    ((∃ r k bytes pad, i = .encodeLine r k bytes pad) ∧ s.session ≠ .idle ∧ t.session = .canceling) ∨
    ((i = .reset ∨ ∃ r, i = .endPage r) ∧ t.session = .idle) := by
  cases i with
  | beginPage r mode width height cfg =>
    rcases exec_beginPage_cases h with ⟨c, -, -, rfl, -⟩ | ⟨r, rfl, -⟩ | ⟨m, -, -, hidle, hlatch, -, rfl⟩
    · exact .inl rfl
    · exact .inl rfl
    · exact .inr (.inl ⟨⟨r, mode, width, height, cfg, rfl⟩, hidle, hlatch, rfl⟩)
  | encodeLine r k bytes pad =>
    rcases exec_encodeLine_cases h with ⟨c, -, -, rfl⟩ | ⟨-, hopen, -, -, rfl⟩ | ⟨-, -, hl, -, -, -, hx⟩
    · exact .inl rfl
    · exact .inr (.inr (.inl ⟨⟨r, k, bytes, pad, rfl⟩, hopen, rfl⟩))
    · exact .inl (State.encodeScanline_continues hl hx).2
  | endPage r =>
    rcases exec_endPage_cases h with ⟨c, -, -, rfl⟩ | ⟨-, -, u, -, rfl⟩
    · exact .inl rfl
    · exact .inr (.inr (.inr ⟨.inr ⟨r, rfl⟩, u.closePage_session⟩))
  | rleEncode =>
    rcases exec_rleEncode_cases h with ⟨rfl, -⟩ | ⟨-, rfl⟩
    · exact .inl rfl
    · exact .inl rfl
  | cancel =>
    rw [exec_cancel_eq] at h
    cases h
    left
    split
    · rfl
    · rfl
  | read index => cases h; exact .inl rfl
  | reset => cases h; exact .inr (.inr (.inr ⟨.inl rfl, rfl⟩))

/-- No operation, RESET included, retracts an item of OUT. -/
theorem exec_out_prefix {i : Instr} (h : exec i s = .next t) : s.out <+: t.out := by
  by_cases hreset : i = .reset
  · subst hreset
    cases h
    exact List.prefix_rfl
  · rcases exec_page_cases h hreset with hcont | ⟨m, width, height, cfg, -, -, rfl⟩
    · exact hcont.out
    · exact List.prefix_append _ _

end Continues

/-- Settles O45: the four ways an operation can change STATE. -/
theorem sessionTransitions : Obligations.SessionTransitions := by
  intro i s t h
  rcases exec_session_cases h with hsame | ⟨hi, hs, -, ht⟩ | ⟨hi, hs, ht⟩ | ⟨hi, ht⟩
  · simp +contextual [hsame]
  · simp [hs, ht, hi]
  · simp [hs, ht, hi]
  · rcases hi with rfl | ⟨r, rfl⟩ <;> simp [ht]

/-- Settles O46: but for RESET, only the start of a page, from Idle to Active, does not keep the parameters. -/
theorem pageParametersAreImmutable : Obligations.PageParametersAreImmutable := by
  intro i s t h hreset hopen
  rcases exec_page_cases h hreset with hcont | ⟨m, width, height, cfg, hidle, -, rfl⟩
  · exact hcont.page
  · rcases hopen with hs | ht
    · exact absurd hidle hs
    · cases ht

/-- Settles O47: neither the operation of a step, nor a rejected head word, nor waiting retracts an item. -/
theorem outIsAppendOnly : Obligations.OutIsAppendOnly := by
  intro s t h
  obtain ⟨p, inp, pos, -, ⟨i, hi⟩ | hi | hi⟩ := step_cases s <;> rw [hi] at h
  · exact (exec_out_prefix h :)
  · cases h; exact List.prefix_rfl
  · cases h; exact List.prefix_rfl

/-- Settles O48: the latch refuses the one operation that would start a page. -/
theorem cancelLatchStopsPages : Obligations.CancelLatchStopsPages := by
  intro i s t hreset hlatch h
  have hcont : s.Continues t := by
    rcases exec_page_cases h hreset with hcont | ⟨m, width, height, cfg, -, hclear, -⟩
    · exact hcont
    · simp [hclear] at hlatch
  refine ⟨hcont.latch hlatch, hcont.index, fun hidle => ?_⟩
  rcases exec_session_cases h with hsame | ⟨-, -, hclear, -⟩ | ⟨-, hopen, -⟩ | ⟨-, ht⟩
  · exact hsame.trans hidle
  · simp [hclear] at hlatch
  · exact absurd hidle hopen
  · exact ht

end Sys2Proof.Machine
end

section
namespace Sys2Proof.Machine

/-! ## A register that a line does not read: CFG (10_state.md R38) -/

/-- The states that a step of a command ended in, changed by `f`; a stop stays a stop. -/
def Progress.map (f : State → State) : Progress → Progress
  | .done s => .done (f s)
  | .capacity s => .capacity (f s)
  | .stopped r => .stopped r

/-- If each of two steps commutes with `f`, so do both in sequence. -/
theorem Progress.map_andThen {f : State → State} {next : State → Progress} (p : Progress)
    (hnext : ∀ s, next (f s) = (next s).map f) : (p.map f).andThen next = (p.andThen next).map f := by
  cases p with
  | done s => exact hnext s
  | capacity s => rfl
  | stopped r => rfl

theorem Progress.outcome_map {f : State → State} (p : Progress)
    (hf : ∀ s, f (s.recordFault .capacity) = (f s).recordFault .capacity) :
    (p.map f).outcome = mapNext f p.outcome := by
  cases p with
  | done s => rfl
  | capacity s => exact congrArg Host.Outcome.next (hf s).symm
  | stopped r => rfl

/-- The state with another CFG. -/
def State.withCfg (c : Word) (s : State) : State := { s with cfg := c }

section WithCfg

variable (c : Word) (s : State)

@[simp] theorem State.withCfg_cur : (s.withCfg c).cur = s.cur := rfl
@[simp] theorem State.withCfg_bpl : (s.withCfg c).bpl = s.bpl := rfl
@[simp] theorem State.withCfg_mode : (s.withCfg c).mode = s.mode := rfl
@[simp] theorem State.withCfg_loadMem (id : MemId) (n : Nat) : (s.withCfg c).loadMem id n = s.loadMem id n := by
  cases id <;> rfl

theorem State.withCfg_storeMem (id : MemId) (bs : List Byte) :
    (s.withCfg c).storeMem id bs = (s.storeMem id bs).map (State.withCfg c) := by
  simp only [State.storeMem, apply_ite (Except.map (State.withCfg c))]
  cases id <;> rfl

theorem State.withCfg_flush (k : Word) : (s.withCfg c).flush k = (s.flush k).map (State.withCfg c) := by
  simp only [State.flush, State.withCfg_cur, State.withCfg_loadMem]
  split
  · rfl
  · split <;> rfl

theorem State.withCfg_preCheck (n : Nat) (k : Word) :
    (s.withCfg c).preCheck n k = (s.preCheck n k).map (State.withCfg c) := by
  simp only [State.preCheck, apply_ite (Progress.map (State.withCfg c)), State.withCfg_flush]
  rfl

theorem State.withCfg_appendBytes (bs : List Byte) :
    (s.withCfg c).appendBytes bs = (s.appendBytes bs).map (State.withCfg c) := by
  simp only [State.appendBytes, apply_ite (Progress.map (State.withCfg c))]
  rfl

theorem State.withCfg_encodeDelta (n : Nat) :
    (s.withCfg c).encodeDelta n = (s.encodeDelta n).map (State.withCfg c) := by
  simp only [State.encodeDelta, State.withCfg_loadMem]
  split
  · rfl
  · split
    · rfl
    next line _ _ ref _ =>
      have happend := State.withCfg_appendBytes c { s with staging := Staging.ofDelta (deltaOf line ref) }
        (Staging.ofDelta (deltaOf line ref)).walk
      refine (congrArg (Progress.andThen · _) happend).trans (Progress.map_andThen _ fun u => ?_)
      rw [State.withCfg_storeMem]
      cases u.storeMem .ref line <;> rfl

theorem State.withCfg_sparseDeltaLine (k : Word) :
    (s.withCfg c).sparseDeltaLine k = (s.sparseDeltaLine k).map (State.withCfg c) := by
  rw [State.sparseDeltaLine, State.withCfg_bpl, State.withCfg_preCheck]
  exact Progress.map_andThen _ fun u => State.withCfg_encodeDelta c u u.bpl.toNat

theorem State.withCfg_passThrough (n : Nat) :
    (s.withCfg c).passThrough n = (s.passThrough n).map (State.withCfg c) := by
  simp only [State.passThrough, State.withCfg_loadMem]
  split <;> rfl

theorem State.withCfg_dispatchLine (k : Word) :
    (s.withCfg c).dispatchLine k = (s.dispatchLine k).map (State.withCfg c) := by
  simp only [State.dispatchLine, State.withCfg_mode, State.withCfg_bpl]
  split
  · exact State.withCfg_passThrough c s _
  · exact State.withCfg_passThrough c s _
  · exact State.withCfg_sparseDeltaLine c s k

theorem State.withCfg_encodeScanline (k : Word) (bytes : List Byte) :
    (s.withCfg c).encodeScanline k bytes = (s.encodeScanline k bytes).map (State.withCfg c) := by
  simp only [State.encodeScanline, State.withCfg_storeMem]
  cases s.storeMem .line bytes with
  | error r => rfl
  | ok u =>
    exact (congrArg (Progress.andThen · _) (State.withCfg_dispatchLine c u k)).trans
      (Progress.map_andThen _ fun _ => rfl)

theorem execEncodeLine_withCfg (reserved : BitVec 8) (k : Word) (bytes pad : List Byte) :
    execEncodeLine reserved k bytes pad (s.withCfg c) =
      mapNext (State.withCfg c) (execEncodeLine reserved k bytes pad s) := by
  have hline : ((s.withCfg c).encodeScanline k bytes).outcome =
      mapNext (State.withCfg c) (s.encodeScanline k bytes).outcome := by
    rw [State.withCfg_encodeScanline]
    exact Progress.outcome_map _ fun _ => rfl
  simp only [execEncodeLine, apply_ite (mapNext (State.withCfg c)), hline]
  rfl

theorem execRleEncode_withCfg (reserved : BitVec 16) (char : Byte) (count : Word) :
    execRleEncode reserved char count (s.withCfg c) =
      mapNext (State.withCfg c) (execRleEncode reserved char count s) := by
  simp only [execRleEncode, apply_ite (mapNext (State.withCfg c))]
  rfl

end WithCfg

/-- Settles O20: ENCODE_LINE and RLE_ENCODE commute with a change of CFG. -/
theorem configurationDoesNotReachLines : Obligations.ConfigurationDoesNotReachLines := by
  rintro i c s (⟨r, k, bytes, pad, rfl⟩ | ⟨r, char, count, rfl⟩)
  · exact execEncodeLine_withCfg c s r k bytes pad
  · exact execRleEncode_withCfg c s r char count

end Sys2Proof.Machine
end

section
namespace Sys2Proof.Machine

/-! ## Reset, the STATUS word and the read port -/

/-- Settles O1: the register values of R55, read off the reset state. -/
theorem powerOnRegistersAreZero : Obligations.PowerOnRegistersAreZero := by
  refine ⟨rfl, rfl, rfl, rfl, rfl, rfl, rfl, rfl, rfl, rfl, rfl, rfl, rfl, rfl, rfl, ?_, rfl⟩
  decide

/-- The fields of the STATUS word, each in the code of its register (R47). -/
theorem State.statusWord_fields (s : State) :
    s.statusWord.extractLsb' 0 2 = s.session.code ∧ s.statusWord.extractLsb' 2 2 = s.mode.code ∧
    s.statusWord.getLsbD 4 = s.cancelReq ∧ s.statusWord.getLsbD 5 = s.cancelLatch ∧
    s.statusWord.extractLsb' 6 2 = s.beginResult.code ∧ s.statusWord.getLsbD 8 = s.fault ∧
    s.statusWord.extractLsb' 9 4 = s.faultCode.code ∧ s.statusWord.extractLsb' 13 19 = 0#19 := by
  simp only [State.statusWord, BitVec.extractLsb'_append_eq_of_le, BitVec.extractLsb'_append_eq_right,
    BitVec.getLsbD_append, Nat.reduceSub, Nat.reduceLeDiff, Nat.reduceLT, if_true, if_false]
  simp

/-- Settles O3: the fields, with the codes of each register written out. -/
theorem statusWordFields : Obligations.StatusWordFields := by
  refine ⟨fun s => ?_, by decide⟩
  obtain ⟨hsession, hmode, hreq, hlatch, hresult, hfault, hcode, hunused⟩ := s.statusWord_fields
  rw [hsession, hmode, hresult, hcode]
  refine ⟨?_, ?_, hreq, hlatch, ?_, hfault, ?_, hunused⟩
  · cases s.session <;> rfl
  · cases s.mode <;> rfl
  · cases s.beginResult <;> rfl
  · cases s.faultCode <;> rfl

/-- The read port, by index (R48). -/
theorem State.readPort_eq (s : State) (index : Nat) :
    s.readPort index =
      if index = 0 then s.statusWord else if index = 1 then s.lineCnt
      else if index = 2 then BitVec.ofNat 32 s.cur.toNat else if index = 3 then s.mark
      else if index = 4 then s.pageIdx else if index = 5 then s.bpl
      else if index = 6 then s.width else if index = 7 then s.height else 0 := by
  match index with
  | 0 | 1 | 3 | 4 | 5 | 6 | 7 => rfl
  | 2 => exact (BitVec.ofNat_toNat 32 s.cur).symm
  | _ + 8 => rfl

/-- Settles O4: a REG read answers what the read port holds. -/
theorem readAnswersAndChangesNothing : Obligations.ReadAnswersAndChangesNothing := by
  intro index s
  rw [← State.readPort_eq]
  rfl

end Sys2Proof.Machine
end

section
namespace Sys2Proof.Machine

/-! ## The words of a command, read back (30_encoding.md R113 to R116, R124) -/

/-- The highest of three fields. -/
theorem extractLsb'_append_append_high {l m n : Nat} (hi : BitVec l) (mid : BitVec m) (lo : BitVec n) :
    (hi ++ mid ++ lo).extractLsb' (m + n) l = hi := by
  rw [BitVec.extractLsb'_append_eq_of_le (Nat.le_add_left n m), Nat.add_sub_cancel, BitVec.extractLsb'_append_eq_left]

/-- The middle one of three fields. -/
theorem extractLsb'_append_append_middle {l m n : Nat} (hi : BitVec l) (mid : BitVec m) (lo : BitVec n) :
    (hi ++ mid ++ lo).extractLsb' n m = mid := by
  rw [BitVec.extractLsb'_append_eq_of_le le_rfl, Nat.sub_self, BitVec.extractLsb'_append_eq_right]

/-- A payload word put together from its four bytes (R124). -/
theorem unpackWord_append (b0 b1 b2 b3 : Byte) : unpackWord (b0 ++ b1 ++ b2 ++ b3) = [b0, b1, b2, b3] := by
  have h0 : (b0 ++ b1 ++ b2 ++ b3).extractLsb' 24 8 = b0 :=
    (BitVec.extractLsb'_append_eq_of_le (by decide)).trans (extractLsb'_append_append_high b0 b1 b2)
  have h1 : (b0 ++ b1 ++ b2 ++ b3).extractLsb' 16 8 = b1 :=
    (BitVec.extractLsb'_append_eq_of_le (by decide)).trans (extractLsb'_append_append_middle b0 b1 b2)
  have h2 : (b0 ++ b1 ++ b2 ++ b3).extractLsb' 8 8 = b2 := extractLsb'_append_append_middle (b0 ++ b1) b2 b3
  have h3 : (b0 ++ b1 ++ b2 ++ b3).extractLsb' 0 8 = b3 := BitVec.extractLsb'_append_eq_right
  rw [unpackWord, h0, h1, h2, h3]

/-- Unpacking undoes packing on whole words (R124). -/
theorem unpackWords_packBytes (bs : List Byte) (h : bs.length % 4 = 0) : unpackWords (packBytes bs) = bs := by
  induction bs using packBytes.induct with
  | case1 b0 b1 b2 b3 rest ih =>
    have hrest : unpackWords (packBytes rest) = rest := ih (by simp only [List.length_cons] at h; omega)
    rw [unpackWords] at hrest
    rw [packBytes, unpackWords, List.flatMap_cons, unpackWord_append, hrest]
    rfl
  | case2 bs hshort =>
    match bs, hshort with
    | [], _ => rfl
    | [_], _ => simp at h
    | [_, _], _ => simp at h
    | [_, _, _], _ => simp at h
    | b0 :: b1 :: b2 :: b3 :: rest, hshort => exact absurd rfl (hshort b0 b1 b2 b3 rest)

/-- Decoding the words of a line's payload, for any head word that gives its length (R114). -/
theorem decodeEncodeLine_packBytes {head : Word} {bytes pad : List Byte} (hn : nbytesOf head = bytes.length)
    (hpad : pad.length = padCount bytes.length) (k : Word) (rest : List Word) :
    decodeEncodeLine head (k :: (packBytes (bytes ++ pad) ++ rest)) =
      .command (.encodeLine (head.extractLsb' 16 8) k bytes pad) rest := by
  have htotal := Laws.length_payload bytes.length
  have hlen := Laws.length_packBytes (bytes ++ pad)
  rw [List.length_append, hpad] at hlen
  have hwords : (packBytes (bytes ++ pad)).length = payloadWords head := by
    rw [payloadWords, hn]; omega
  have hbytes : unpackWords (packBytes (bytes ++ pad)) = bytes ++ pad :=
    unpackWords_packBytes _ (by rw [List.length_append, hpad]; omega)
  simp [decodeEncodeLine, ← hwords, hbytes, hn]

/-- The words of a well-formed command decode to it, with the words after it left over (R112, R126). -/
theorem decode_encode {i : Instr} (hw : i.wellFormed = true) (hc : i.isCommand = true) (rest : List Word) :
    decode (encode i ++ rest) = .command i rest := by
  cases i with
  | beginPage reserved mode width height cfg =>
    have hopc : opcodeOf (0x01#8 ++ reserved ++ mode) = 0x01#8 := extractLsb'_append_append_high _ reserved mode
    have hres : (0x01#8 ++ reserved ++ mode).extractLsb' 2 22 = reserved := extractLsb'_append_append_middle _ _ _
    have hmode : (0x01#8 ++ reserved ++ mode).extractLsb' 0 2 = mode := BitVec.extractLsb'_append_eq_right
    simp [encode, decode, hopc, decodeBeginPage, hres, hmode]
  | encodeLine reserved lineIndex bytes pad =>
    obtain ⟨hbytes, hpad⟩ : bytes.length < 2 ^ 16 ∧ pad.length = padCount bytes.length := by
      simpa [Instr.wellFormed] using hw
    have hopc : opcodeOf (0x02#8 ++ reserved ++ BitVec.ofNat 16 bytes.length) = 0x02#8 :=
      extractLsb'_append_append_high _ reserved (BitVec.ofNat 16 bytes.length)
    have hres : (0x02#8 ++ reserved ++ BitVec.ofNat 16 bytes.length).extractLsb' 16 8 = reserved :=
      extractLsb'_append_append_middle _ _ _
    have hline := decodeEncodeLine_packBytes (Laws.nbytesOf_append (0x02#8 ++ reserved) _ hbytes) hpad lineIndex rest
    simp [encode, decode, hopc, hline, hres]
  | endPage reserved =>
    have hopc : opcodeOf (0x03#8 ++ reserved) = 0x03#8 := Laws.opcodeOf_append _ _
    have hres : (0x03#8 ++ reserved).extractLsb' 0 24 = reserved := BitVec.extractLsb'_append_eq_right
    simp [encode, decode, hopc, hres]
  | rleEncode reserved char count =>
    have hopc : opcodeOf (0x04#8 ++ reserved ++ char) = 0x04#8 := extractLsb'_append_append_high _ reserved char
    have hres : (0x04#8 ++ reserved ++ char).extractLsb' 8 16 = reserved := extractLsb'_append_append_middle _ _ _
    have hchar : (0x04#8 ++ reserved ++ char).extractLsb' 0 8 = char := BitVec.extractLsb'_append_eq_right
    simp [encode, decode, hopc, decodeRleEncode, hres, hchar]
  | cancel => cases hc
  | read index => cases hc
  | reset => cases hc

end Sys2Proof.Machine
end

section
namespace Sys2Proof.Machine

/-! ## What a step takes from its inputs (20_memory.md R90 to R92) -/

/-- The encoding of a well-formed command is as long as its head word says (R118). -/
theorem length_encode {i : Instr} (hw : i.wellFormed = true) (hc : i.isCommand = true) :
    (encode i).length = commandLength ((encode i).headD 0) := by
  cases i with
  | beginPage r m w h c => exact Laws.EncodedLength.beginPage r m w h c hw hc
  | encodeLine r k bytes pad => exact Laws.EncodedLength.encodeLine r k bytes pad hw hc
  | endPage r => exact Laws.EncodedLength.endPage r hw hc
  | rleEncode r c n => exact Laws.EncodedLength.rleEncode r c n hw hc
  | cancel => cases hc
  | read index => cases hc
  | reset => cases hc

/-- The encoding of a well-formed command, taken apart at its head word. -/
theorem encode_eq_cons {i : Instr} (hw : i.wellFormed = true) (hc : i.isCommand = true) :
    ∃ head tail, encode i = head :: tail ∧ tail.length + 1 = commandLength head := by
  have hlen := length_encode hw hc
  cases henc : encode i with
  | nil => have hdec := decode_encode hw hc []; rw [henc] at hdec; cases hdec
  | cons head tail => exact ⟨head, tail, rfl, by simpa [henc] using hlen⟩

/-- The words wanted are those of the command at the front that have not been received, whether its head word has been
received or comes next. -/
theorem wordsNeeded_eq {pending ws tail : List Word} {head : Word} (h : pending ++ ws = head :: tail)
    (rest : List Input) :
    wordsNeeded pending (ws.map .word ++ rest) = commandLength head - pending.length := by
  cases pending with
  | nil =>
    obtain rfl : ws = head :: tail := h
    rfl
  | cons head' got =>
    obtain ⟨rfl, -⟩ := List.cons.inj h
    rfl

/-- Some, but not all, of the words of a command are no whole command (R118). -/
theorem decode_of_append_eq_encode {i : Instr} (hw : i.wellFormed = true) (hc : i.isCommand = true) {ws ws' : List Word}
    (h : ws ++ ws' = encode i) (hmissing : ws' ≠ []) : decode ws = .incomplete := by
  obtain ⟨head, tail, henc, hlen⟩ := encode_eq_cons hw hc
  cases ws with
  | nil => rfl
  | cons head' got =>
    rw [henc, List.cons_append] at h
    obtain ⟨rfl, rfl⟩ := List.cons.inj h
    have hpos := List.length_pos_iff.2 hmissing
    rw [decode_incomplete_iff]
    rw [List.length_append] at hlen
    omega

/-- Settles O41: the words next on CMD are as many as the step wants, and decode to the command. -/
theorem stepRunsTheCommand : Obligations.StepRunsTheCommand := by
  intro i ws rest s hw hc hall hin
  obtain ⟨head, tail, henc, hlen⟩ := encode_eq_cons hw hc
  have hneed : ws.length = wordsNeeded s.pending s.input := by
    have htotal := congrArg List.length (hall.trans henc)
    rw [List.length_append, List.length_cons] at htotal
    rw [hin, wordsNeeded_eq (hall.trans henc)]
    omega
  have hdec : decode (encode i) = .command i [] := by simpa using decode_encode hw hc []
  rw [step, s.fetch_words ws rest hin (.inl hneed), hall, hdec]
  rfl

/-- With words of a command missing before an event or the end of the inputs, the words there are received, and the
event is next. -/
theorem State.fetch_of_incomplete {s : State} {ws : List Word} {rest : List Input}
    (hdec : decode (s.pending ++ ws) = .incomplete) (hin : s.input = ws.map .word ++ rest)
    (hrest : ∀ w r, rest ≠ .word w :: r) :
    s.fetch = { s with pending := s.pending ++ ws, input := rest }.fetchEvent := by
  have hneed : ws.length ≤ wordsNeeded s.pending s.input := by
    cases hall : s.pending ++ ws with
    | nil => simp [(List.append_eq_nil_iff.1 hall).2]
    | cons head tail =>
      have htotal := congrArg List.length hall
      rw [hall, decode_incomplete_iff] at hdec
      rw [List.length_append, List.length_cons] at htotal
      rw [hin, wordsNeeded_eq hall]
      omega
  rw [s.fetch_words ws rest hin (.inr ⟨hneed, hrest⟩), hdec]

/-- Settles O42: the words before the event are received, and the event is what the step runs. -/
theorem stepRunsTheEvent : Obligations.StepRunsTheEvent := by
  intro ws rest s hdec
  refine ⟨fun hin => ?_, fun hin => ?_, fun index hin => ?_⟩ <;>
    rw [step, State.fetch_of_incomplete hdec hin (by simp)] <;> rfl

/-- CANCEL neither reads nor changes what has been received and what comes next. -/
theorem exec_cancel_receive (s : State) : ∃ t : State, ∀ (p : List Word) (inp : List Input),
    exec .cancel { s with pending := p, input := inp } = .next { t with pending := p, input := inp } := by
  simp only [exec_cancel_eq]
  by_cases hs : s.session = .idle
  · exact ⟨{ s with cancelLatch := true }, fun _ _ => by rw [if_pos hs]⟩
  · exact ⟨{ s with cancelReq := true }, fun _ _ => by rw [if_neg hs]⟩

theorem stepTwice_of_next {s t : State} (h : step s = .next t) : stepTwice s = step t := by
  rw [stepTwice, h]

/-- Settles O44: wherever the CANCEL stands, the first step runs it and the second runs the command. -/
theorem cancelAmongWordsActsBefore : Obligations.CancelAmongWordsActsBefore := by
  intro i ws ws' rest s hw hc hall hmissing hpending
  obtain ⟨t, ht⟩ := exec_cancel_receive s
  have hcancel (p : List Word) (inp : List Input) (hp : decode p = .incomplete) :
      step { s with input := p.map .word ++ .cancel :: inp } = .next { t with pending := p, input := inp } := by
    have hrun := (stepRunsTheEvent p inp { s with input := p.map .word ++ .cancel :: inp }
      (by simpa [hpending] using hp)).1 rfl
    simpa [hpending, ht p inp] using hrun
  have hcommand (p words : List Word) (h : p ++ words = encode i) :
      step { t with pending := p, input := words.map .word ++ rest } =
        exec i { t with pending := [], input := rest, cmdPos := t.cmdPos + (encode i).length } :=
    stepRunsTheCommand i words rest _ hw hc h rfl
  have hbefore := hcancel [] ((ws ++ ws').map .word ++ rest) rfl
  rw [List.map_nil, List.nil_append] at hbefore
  rw [stepTwice_of_next (hcancel ws _ (decode_of_append_eq_encode hw hc hall hmissing)), hcommand ws ws' hall,
    ← List.map_append, stepTwice_of_next hbefore, hcommand [] (ws ++ ws') hall]

end Sys2Proof.Machine
end

section
namespace Sys2Proof.Machine

/-! ## The words read, written again (30_encoding.md R113 to R118, R124, R126) -/

/-- A word of two fields, put together again from them. -/
theorem append_extractLsb' {m n : Nat} (w : BitVec (m + n)) : w.extractLsb' n m ++ w.extractLsb' 0 n = w :=
  (BitVec.extractLsb'_append_extractLsb'_eq_extractLsb' (Nat.zero_add n).symm).trans BitVec.extractLsb'_eq_self

/-- A word of three fields, put together again from them. -/
theorem append_append_extractLsb' {l m n : Nat} (w : BitVec (l + m + n)) :
    w.extractLsb' (m + n) l ++ w.extractLsb' n m ++ w.extractLsb' 0 n = w := by
  rw [BitVec.extractLsb'_append_extractLsb'_eq_extractLsb' (Nat.add_comm m n)]
  exact append_extractLsb' w

/-- Packing undoes unpacking (R124). -/
theorem packBytes_unpackWords (ws : List Word) : packBytes (unpackWords ws) = ws := by
  induction ws with
  | nil => rfl
  | cons w ws ih =>
    have hword : w.extractLsb' 24 8 ++ w.extractLsb' 16 8 ++ w.extractLsb' 8 8 ++ w.extractLsb' 0 8 = w := by
      rw [BitVec.extractLsb'_append_extractLsb'_eq_extractLsb' (by decide)]
      exact append_append_extractLsb' (l := 16) (m := 8) (n := 8) w
    calc packBytes (unpackWords (w :: ws))
        = (w.extractLsb' 24 8 ++ w.extractLsb' 16 8 ++ w.extractLsb' 8 8 ++ w.extractLsb' 0 8) ::
            packBytes (unpackWords ws) := rfl
      _ = w :: ws := by rw [hword, ih]

/-- A word unpacks to four bytes (R124). -/
theorem length_unpackWords (ws : List Word) : (unpackWords ws).length = 4 * ws.length := by
  induction ws with
  | nil => rfl
  | cons w ws ih =>
    calc (unpackWords (w :: ws)).length
        = (unpackWords ws).length + 4 := rfl
      _ = 4 * (w :: ws).length := by rw [ih, List.length_cons]; omega

/-- Byte `j` of a payload is byte `j % 4` of word `j / 4`, counted from its most significant byte (R124). -/
theorem getElem?_unpackWords (ws : List Word) (j : Nat) :
    (unpackWords ws)[j]? = (ws[j / 4]?).map fun w => w.extractLsb' (24 - 8 * (j % 4)) 8 := by
  induction ws generalizing j with
  | nil => rfl
  | cons w ws ih =>
    match j with
    | 0 | 1 | 2 | 3 => rfl
    | j + 4 =>
      have hdiv : (j + 4) / 4 = j / 4 + 1 := by omega
      have hmod : (j + 4) % 4 = j % 4 := by omega
      rw [hdiv, hmod]
      exact ih j

/-- The payload words of a line hold its NBYTES bytes (R114, R124). -/
theorem length_take_unpackWords {head : Word} {payload : List Word} (hlen : payload.length = payloadWords head) :
    ((unpackWords payload).take (nbytesOf head)).length = nbytesOf head := by
  have htotal := Laws.length_payload (nbytesOf head)
  rw [List.length_take, length_unpackWords, hlen, payloadWords]
  omega

/-- The command the decoder reads from a head word and the words after it, by opcode (R113 to R116). -/
theorem decode_command_cases {head : Word} {ws rest : List Word} {i : Instr}
    (h : decode (head :: ws) = .command i rest) :
    (opcodeOf head = 0x01#8 ∧ ∃ width height cfg, ws = width :: height :: cfg :: rest ∧
      i = .beginPage (head.extractLsb' 2 22) (head.extractLsb' 0 2) width height cfg) ∨
    (opcodeOf head = 0x02#8 ∧ ∃ index payload bytes pad, ws = index :: (payload ++ rest) ∧
      payload.length = payloadWords head ∧ bytes.length = nbytesOf head ∧ bytes ++ pad = unpackWords payload ∧
      i = .encodeLine (head.extractLsb' 16 8) index bytes pad) ∨
    (opcodeOf head = 0x03#8 ∧ ws = rest ∧ i = .endPage (head.extractLsb' 0 24)) ∨
    (opcodeOf head = 0x04#8 ∧ ∃ count, ws = count :: rest ∧
      i = .rleEncode (head.extractLsb' 8 16) (head.extractLsb' 0 8) count) := by
  by_cases h1 : opcodeOf head = 0x01#8
  · rw [decode, if_pos h1] at h
    match ws with
    | width :: height :: cfg :: left =>
      cases h
      exact .inl ⟨h1, width, height, cfg, rfl, rfl⟩
  by_cases h2 : opcodeOf head = 0x02#8
  · rw [decode, if_neg h1, if_pos h2] at h
    match ws with
    | index :: payload =>
      rw [decodeEncodeLine] at h
      split at h
      · cases h
      · rename_i henough
        cases h
        have hlen := List.length_take_of_le (not_lt.1 henough)
        refine .inr (.inl ⟨h2, index, payload.take (payloadWords head), _, _, ?_, hlen,
          length_take_unpackWords hlen, List.take_append_drop _ _, rfl⟩)
        rw [List.take_append_drop]
  by_cases h3 : opcodeOf head = 0x03#8
  · rw [decode, if_neg h1, if_neg h2, if_pos h3] at h
    cases h
    exact .inr (.inr (.inl ⟨h3, rfl, rfl⟩))
  by_cases h4 : opcodeOf head = 0x04#8
  · rw [decode, if_neg h1, if_neg h2, if_neg h3, if_pos h4] at h
    match ws with
    | count :: left =>
      cases h
      exact .inr (.inr (.inr ⟨h4, count, rfl, rfl⟩))
  · rw [decode, if_neg h1, if_neg h2, if_neg h3, if_neg h4] at h
    cases h

/-- A head word of no command is read alone (R117). -/
theorem decode_illegalOpcode_iff {head w : Word} {ws rest : List Word} :
    decode (head :: ws) = .illegalOpcode w rest ↔
      head.extractLsb' 24 8 ∉ [0x01#8, 0x02#8, 0x03#8, 0x04#8] ∧ w = head ∧ rest = ws := by
  change _ ↔ opcodeOf head ∉ [0x01#8, 0x02#8, 0x03#8, 0x04#8] ∧ w = head ∧ rest = ws
  simp only [List.mem_cons, List.not_mem_nil, or_false, not_or]
  constructor
  · intro h
    rw [decode] at h
    split at h
    · unfold decodeBeginPage at h
      split at h <;> cases h
    split at h
    · unfold decodeEncodeLine at h
      split at h
      · split at h <;> cases h
      · cases h
    split at h
    · cases h
    split at h
    · unfold decodeRleEncode at h
      split at h <;> cases h
    · cases h
      exact ⟨⟨‹_›, ‹_›, ‹_›, ‹_›⟩, rfl, rfl⟩
  · rintro ⟨⟨h1, h2, h3, h4⟩, rfl, rfl⟩
    rw [decode, if_neg h1, if_neg h2, if_neg h3, if_neg h4]

/-- A line whose bytes are those of its payload words is well-formed, and they are its words (R114, R124). -/
theorem encode_encodeLine {head : Word} (hopc : opcodeOf head = 0x02#8) (index : Word) {payload : List Word}
    (hlen : payload.length = payloadWords head) {bytes pad : List Byte} (hall : bytes ++ pad = unpackWords payload)
    (hn : bytes.length = nbytesOf head) :
    (Instr.encodeLine (head.extractLsb' 16 8) index bytes pad).wellFormed = true ∧
      encode (.encodeLine (head.extractLsb' 16 8) index bytes pad) = head :: index :: payload := by
  have htotal := congrArg List.length hall
  rw [List.length_append, length_unpackWords, hlen, payloadWords, ← hn, ← Laws.length_payload] at htotal
  have hfield : BitVec.ofNat 16 bytes.length = head.extractLsb' 0 16 := by
    rw [hn, nbytesOf, BitVec.ofNat_toNat, BitVec.setWidth_eq]
  have hhead : 0x02#8 ++ head.extractLsb' 16 8 ++ head.extractLsb' 0 16 = head := by
    rw [← hopc]
    exact append_append_extractLsb' (l := 8) (m := 8) (n := 16) head
  constructor
  · have hlt : bytes.length < 2 ^ 16 := by rw [hn]; exact (head.extractLsb' 0 16).isLt
    have hpad : pad.length = padCount bytes.length := Nat.add_left_cancel htotal
    simp only [Instr.wellFormed, hlt, hpad, decide_true, Bool.and_self]
  · rw [encode, hfield, hhead, hall, packBytes_unpackWords]

/-- A decoded command is well-formed, and its words are the ones read (R126). -/
theorem encode_of_decode {head : Word} {ws rest : List Word} {i : Instr} (h : decode (head :: ws) = .command i rest) :
    i.wellFormed = true ∧ i.isCommand = true ∧ encode i ++ rest = head :: ws := by
  rcases decode_command_cases h with ⟨hopc, width, height, cfg, rfl, rfl⟩ |
    ⟨hopc, index, payload, bytes, pad, rfl, hlen, hn, hall, rfl⟩ | ⟨hopc, rfl, rfl⟩ | ⟨hopc, count, rfl, rfl⟩
  · have hhead := append_append_extractLsb' (l := 8) (m := 22) (n := 2) head
    refine ⟨rfl, rfl, ?_⟩
    rw [encode, ← hopc, opcodeOf, hhead]
    rfl
  · obtain ⟨hw, henc⟩ := encode_encodeLine hopc index hlen hall hn
    exact ⟨hw, rfl, congrArg (· ++ rest) henc⟩
  · have hhead := append_extractLsb' (m := 8) (n := 24) head
    refine ⟨rfl, rfl, ?_⟩
    rw [encode, ← hopc, opcodeOf, hhead]
    rfl
  · have hhead := append_append_extractLsb' (l := 8) (m := 16) (n := 8) head
    refine ⟨rfl, rfl, ?_⟩
    rw [encode, ← hopc, opcodeOf, hhead]
    rfl

/-- Settles O36: each field of a head word and each payload byte is read back where it was written. -/
theorem decodeOfEncode : Obligations.DecodeOfEncode := fun _ rest hw hc => decode_encode hw hc rest

/-- Settles O37: the fields of the head word and the payload words are put together again. -/
theorem encodeOfDecode : Obligations.EncodeOfDecode := by
  intro ws rest i h
  cases ws with
  | nil => cases h
  | cons head ws => exact encode_of_decode h

/-- A decoded command takes as many words as its head word asks for (R118). -/
theorem decode_command_rest {head : Word} {ws rest : List Word} {i : Instr}
    (h : decode (head :: ws) = .command i rest) : rest = (head :: ws).drop (commandLength head) := by
  obtain ⟨hw, hc, hwords⟩ := encode_of_decode h
  obtain ⟨head', tail, henc, hlen⟩ := encode_eq_cons hw hc
  rw [henc, List.cons_append] at hwords
  obtain ⟨rfl, rfl⟩ := List.cons.inj hwords
  rw [← hlen, List.drop_succ_cons, List.drop_left]

/-- Settles O38: what is not incomplete is a command or an illegal head word, and each takes its length. -/
theorem commandLengthFromHead : Obligations.CommandLengthFromHead := by
  intro head ws
  refine ⟨(decode_incomplete_iff head ws).2, fun henough => ?_⟩
  cases hdec : decode (head :: ws) with
  | command i rest => exact .inl ⟨i, by rw [← decode_command_rest hdec]⟩
  | illegalOpcode w rest =>
    have hcount := (decode_left_length head ws rest).2 w hdec
    obtain ⟨-, rfl, rfl⟩ := decode_illegalOpcode_iff.1 hdec
    exact .inr ⟨rfl, by omega⟩
  | incomplete => exact absurd ((decode_incomplete_iff head ws).1 hdec) (not_lt.2 henough)

/-- Settles O39: the payload words unpack to the line's bytes, which are the first ones of all that follow. -/
theorem payloadPacking : Obligations.PayloadPacking := by
  intro head index ws rest r k bytes pad hdec
  rcases decode_command_cases hdec with ⟨-, _, _, _, -, hi⟩ |
    ⟨-, _, payload, _, _, hws, -, hn, hall, hi⟩ | ⟨-, -, hi⟩ | ⟨-, _, -, hi⟩
  · cases hi
  · cases hi
    cases hws
    refine ⟨hn, rfl, rfl, fun j hj => ?_, fun pad' s => rfl⟩
    have hfront : unpackWords (payload ++ rest) = bytes ++ (pad ++ unpackWords rest) := by
      rw [← List.append_assoc, hall]
      exact List.flatMap_append
    rw [← getElem?_unpackWords, hfront, List.getElem?_append_left hj]
  · cases hi
  · cases hi

/-! ## Faults of the head word -/

/-- Settles O6: each command tests its reserved bits first. -/
theorem reservedBitsFault : Obligations.ReservedBitsFault := by
  intro i s h
  cases i with
  | beginPage r m width height cfg => exact if_pos (of_decide_eq_true h)
  | encodeLine r k bytes pad => exact if_pos (of_decide_eq_true h)
  | endPage r => exact if_pos (of_decide_eq_true h)
  | rleEncode r c n => exact if_pos (of_decide_eq_true h)
  | cancel => cases h
  | read index => cases h
  | reset => cases h

/-- Settles O7: the head word alone is as many words as it asks for, and is none of a command. -/
theorem illegalHeadWordFaults : Obligations.IllegalHeadWordFaults := by
  intro s head rest hopc hpending hin
  have hdec : decode [head] = .illegalOpcode head [] := decode_illegalOpcode_iff.2 ⟨hopc, rfl, rfl⟩
  have hone : commandLength head = 1 := by simpa using (decode_left_length head [] []).2 head hdec
  have hneed : [head].length = wordsNeeded s.pending s.input := by
    rw [hpending, hin]
    exact hone.symm
  rw [step, s.fetch_words [head] rest hin (.inl hneed), hpending, List.nil_append, hdec]
  rfl

/-- Settles O40: each sequence is decoded. -/
theorem encodingTableWords : Obligations.EncodingTableWords := by
  refine ⟨?_, ?_, ?_, ?_, ?_⟩ <;> decide

/-- Settles O43: the words there are received, and with nothing after them the block waits. -/
theorem stepWaitsForWords : Obligations.StepWaitsForWords := by
  intro ws s hdec hin
  rw [step, State.fetch_of_incomplete hdec (rest := []) (by rw [hin, List.append_nil]) (by simp)]
  rfl

end Sys2Proof.Machine
end

section
namespace Sys2Proof.Machine

/-! ## BEGIN_PAGE: the commit, the refusals and the frame (40_page_session.md R151, R152) -/

/-- A BEGIN_PAGE in Idle with no reserved bit set and a legal MODE: the latch refuses the page, then the geometry. -/
theorem exec_beginPage_idle {s : State} (hidle : s.session = .idle) (m : GraphicsMode) (width height cfg : Word) :
    exec (.beginPage 0 m.code width height cfg) s = .next
      (if s.cancelLatch then s.refusePage .canceled
       else if geometryError m width height then s.refusePage .geometryError
       else s.openPage m width height cfg) := by
  simp only [exec, execBeginPage, modeOf_code, hidle, ne_eq, not_true_eq_false, if_false]
  rw [apply_ite Host.Outcome.next, apply_ite Host.Outcome.next]

/-- When a page cannot be started (R151). -/
theorem geometryError_iff (m : GraphicsMode) (width height : Word) :
    geometryError m width height = true ↔
      width.toInt ≤ 0 ∨ height.toInt ≤ 0 ∨ 65535 < bytesPerLine width ∨
        (m = .sparseDelta ∧ 512 < bytesPerLine width) := by
  rw [← not_iff_not, Bool.not_eq_true, geometryError_eq_false_iff]
  simp only [not_or, not_and, not_le, not_lt]

/-- Settles O11: neither the latch nor the geometry refuses the page, so the commit runs. -/
theorem beginPageStartsPage : Obligations.BeginPageStartsPage := by
  intro m width height cfg s hidle hlatch hwidth hheight hdirect hdelta
  have hgeo : geometryError m width height = false :=
    (geometryError_eq_false_iff m width height).2 ⟨hwidth, hheight, hdirect, hdelta⟩
  refine ⟨s.openPage m width height cfg, ?_, rfl, rfl, rfl, bytesPerLine_register hgeo, rfl, fun a ha => ?_,
    rfl, rfl, rfl, BitVec.toNat_add _ _, rfl, rfl, rfl⟩
  · rw [exec_beginPage_idle hidle, hlatch, hgeo]
    rfl
  · rw [State.openPage_ref_read, if_pos ha]

/-- Settles O12: the latch is tested before the geometry. -/
theorem beginPageRefusedOutcomes : Obligations.BeginPageRefusedOutcomes := by
  intro m width height cfg s hidle
  rw [exec_beginPage_idle hidle]
  refine ⟨fun hlatch => ?_, fun hlatch hsize => ?_⟩
  · rw [if_pos hlatch]
    rfl
  · rw [if_neg (by simp [hlatch]), if_pos ((geometryError_iff m width height).2 hsize)]
    rfl

/-- Settles O13: a fault and a refused page store nothing, and the commit stores REF's 512 bytes alone. -/
theorem beginPageFrame : Obligations.BeginPageFrame := by
  intro reserved mode width height cfg s t h
  rcases exec_beginPage_cases h with ⟨c, -, -, rfl, -⟩ | ⟨r, rfl, -⟩ | ⟨m, -, -, -, -, -, rfl⟩
  all_goals refine ⟨fun _ => ⟨rfl, rfl⟩, fun a ha => ?_, rfl, ⟨rfl, rfl⟩, rfl, rfl, rfl, rfl⟩
  · rfl
  · rfl
  · rw [State.openPage_ref_read, if_neg (not_lt.2 ha)]

end Sys2Proof.Machine
end

section
namespace Sys2Proof.Machine

/-! ## ENCODE_LINE: a direct line, the canceling line and the frame (40_page_session.md R155 to R161) -/

/-- Settles O15: both states are canceling ones, which are tested right after the length. -/
theorem cancelingLineIsDiscarded : Obligations.CancelingLineIsDiscarded := by
  intro k bytes pad s hs hlen
  have hopen : s.session ≠ .idle := by rcases hs with hs | ⟨hs, -⟩ <;> simp [hs]
  have hcanceling : s.canceling = true := by rcases hs with hs | ⟨-, hs⟩ <;> simp [State.canceling, hs]
  simp [exec, execEncodeLine, hopen, hlen, hcanceling]

/-- Settles O14: the line fits LINE, so `encodeScanline_direct` is its copy to OUT. -/
theorem directLineIsCopied : Obligations.DirectLineIsCopied := by
  intro bytes pad s hw hactive hreq hmode hlen hcount
  have hfit : ¬ MemId.line.size < bytes.length := by
    have hlt : bytes.length < 2 ^ 16 := by
      rw [Instr.wellFormed, Bool.and_eq_true, decide_eq_true_eq] at hw
      exact hw.1
    simp only [MemId.size, Config.maxBplDirect]
    omega
  have hnext : (s.lineCnt + 1).toNat = s.lineCnt.toNat + 1 := by
    have hheight : s.height.toInt < 2 ^ 31 := s.height.toInt_lt
    exact BitVec.toNat_add_of_lt (show s.lineCnt.toNat + 1 < 2 ^ 32 by omega)
  rw [exec_encodeLine_accepted pad hactive hlen hreq hcount, State.encodeScanline_direct hmode hlen, if_neg hfit]
  exact ⟨_, rfl, rfl, hnext, Memory.holds_store _ _ _, rfl, rfl, ⟨rfl, rfl⟩, hactive⟩

/-- `t` is `s` but for what a line may write: STATE, the fault record, OUT, LINE_CNT, the chunk buffer, LINE, REF and the
staging. -/
structure State.LineFrame (s t : State) : Prop where
  page : SamePage s t
  cancel : SameCancel s t
  result : t.beginResult = s.beginResult
  index : t.pageIdx = s.pageIdx
  ports : SamePorts s t

theorem State.lineFrame_refl (s : State) : s.LineFrame s :=
  ⟨⟨rfl, rfl, rfl, rfl, rfl⟩, ⟨rfl, rfl⟩, rfl, rfl, rfl, rfl, rfl, rfl⟩

/-- The chunk buffer after the pre-check of a line: CB is as it was, and the line's code begins at CUR, or at 0 if the
comparison asks for a flush (R272). -/
theorem State.preCheck_done_cur {s u : State} {n : Nat} {k : Word} (h : s.preCheck n k = .done u) :
    u.cb = s.cb ∧ u.cur.toNat = if s.room < worstCase n then 0 else s.cur.toNat := by
  rcases State.preCheck_done_cases h with ⟨rfl, hfit | hcur⟩ | ⟨hfull, -, payload, -, -, rfl⟩
  · exact ⟨rfl, by rw [if_neg (not_lt.2 hfit)]⟩
  · exact ⟨rfl, by simp [hcur]⟩
  · exact ⟨rfl, by rw [if_pos hfull]; rfl⟩

/-- What a line that is not canceled stores in SparseDelta mode, CAPACITY or not: its bytes in LINE, at most its bytes in
REF, and at most the walk in CB, from where the pre-check left CUR. -/
theorem State.encodeScanline_sparse_frame {s t : State} {k : Word} {bytes : List Byte}
    (hmode : s.mode = .sparseDelta) (hlen : bytes.length = s.bpl.toNat)
    (h : (s.encodeScanline k bytes).outcome = .next t) :
    s.LineFrame t ∧ t.line = s.line.store 0 bytes ∧ (t.ref = s.ref ∨ t.ref = s.ref.store 0 bytes) ∧
      ∃ code : List Byte, code.length ≤ t.staging.walk.length ∧
        t.cb = s.cb.store (if s.room < worstCase s.bpl.toNat then 0 else s.cur.toNat) code := by
  obtain ⟨-, ⟨hdirect, -⟩ | ⟨-, -, u, ref, hu, -, -, hcode⟩⟩ := State.encodeScanline_next_cases hlen h
  · exact absurd hmode hdirect
  obtain ⟨-, hpage, -, hcancel, hresult, -, hindex, hline, href, -, -, hports⟩ := State.preCheck_done_frame hu
  obtain ⟨hcb, hcur⟩ := State.preCheck_done_cur hu
  have hsu : s.LineFrame u := ⟨hpage, hcancel, hresult, hindex, hports⟩
  have hstart : ∀ code, u.cb.store u.cur.toNat code =
      s.cb.store (if s.room < worstCase s.bpl.toNat then 0 else s.cur.toNat) code := fun code => by
    rw [hcb, hcur]
    rfl
  rcases hcode with ⟨-, rfl⟩ | ⟨-, rfl⟩
  · exact ⟨{ hsu with }, hline, .inr (congrArg (Memory.store · 0 bytes) href), _, le_rfl, hstart _⟩
  · exact ⟨{ hsu with }, hline, .inl href, _, List.length_take_le' _ _, hstart _⟩

/-- What a line that is not canceled leaves unchanged in a direct mode: everything but LINE, OUT and LINE_CNT. -/
theorem State.encodeScanline_direct_frame {s t : State} {k : Word} {bytes : List Byte}
    (hmode : s.mode ≠ .sparseDelta) (hlen : bytes.length = s.bpl.toNat)
    (h : (s.encodeScanline k bytes).outcome = .next t) :
    s.LineFrame t ∧ t.line = s.line.store 0 bytes ∧ t.ref = s.ref ∧ t.cb = s.cb ∧ t.staging = s.staging ∧
      SameCursor s t := by
  obtain ⟨-, ⟨-, rfl⟩ | ⟨hsparse, -⟩⟩ := State.encodeScanline_next_cases hlen h
  · exact ⟨{ s.lineFrame_refl with }, rfl, rfl, rfl, rfl, rfl, rfl⟩
  · exact absurd hsparse hmode

/-- Settles O18: a fault and a canceling line store nothing, and a line that runs stores inside the ranges given. -/
theorem encodeLineFrame : Obligations.EncodeLineFrame := by
  intro reserved k bytes pad s t h
  rcases exec_encodeLine_cases h with ⟨c, -, -, rfl⟩ | ⟨-, -, -, -, rfl⟩ | ⟨-, -, hlen, -, -, -, hrun⟩
  · simp [SamePage, SameCancel, SamePorts, SameCursor]
  · simp [SamePage, SameCancel, SamePorts, SameCursor]
  have hstore : ∀ (m : Memory) (a : Nat), bytes.length ≤ a → (m.store 0 bytes).read a = m.read a :=
    fun m a ha => Memory.read_store_outside (.inr (by omega))
  by_cases hmode : s.mode = .sparseDelta
  · obtain ⟨⟨hpage, hcancel, hresult, hindex, hports⟩, hline, href, code, hcode, hcb⟩ :=
      State.encodeScanline_sparse_frame hmode hlen hrun
    refine ⟨hpage, hcancel, hresult, hindex, hports, fun a ha => by rw [hline, hstore _ _ ha],
      fun hdirect => absurd hmode hdirect, fun _ start hstart => ⟨fun a ha => ?_, fun a ha => ?_⟩⟩
    · rcases href with href | href <;> rw [href]
      exact hstore _ _ ha
    · rw [hcb, ← hstart]
      exact Memory.read_store_outside (by omega)
  · obtain ⟨⟨hpage, hcancel, hresult, hindex, hports⟩, hline, href, hcb, hrest⟩ :=
      State.encodeScanline_direct_frame hmode hlen hrun
    exact ⟨hpage, hcancel, hresult, hindex, hports, fun a ha => by rw [hline, hstore _ _ ha],
      fun _ => ⟨fun a => by rw [href, hcb]; exact ⟨rfl, rfl⟩, hrest⟩, fun hsparse => absurd hsparse hmode⟩

/-! ## The two direct modes (40_page_session.md R153, R159) -/

/-- The state with another MODE. -/
def State.withMode (m : GraphicsMode) (s : State) : State := { s with mode := m }

theorem State.withMode_storeLine (m : GraphicsMode) (s : State) (bytes : List Byte) :
    (s.withMode m).storeMem .line bytes = (s.storeMem .line bytes).map (State.withMode m) := by
  simp only [State.storeMem, apply_ite (Except.map (State.withMode m))]
  rfl

theorem State.withMode_passThrough (m : GraphicsMode) (s : State) (n : Nat) :
    (s.withMode m).passThrough n = (s.passThrough n).map (State.withMode m) := by
  have hload : (s.withMode m).loadMem .line n = s.loadMem .line n := rfl
  simp only [State.passThrough, hload]
  split <;> rfl

/-- A line that is not canceled, in either direct mode: both dispatch it to the passthrough. -/
theorem State.encodeScanline_withMode {s : State} (hmode : s.mode = .directMaskAnd) (k : Word) (bytes : List Byte) :
    (s.withMode .directMaskOr).encodeScanline k bytes =
      (s.encodeScanline k bytes).map (State.withMode .directMaskOr) := by
  rw [State.encodeScanline, State.encodeScanline, State.withMode_storeLine]
  cases hstore : s.storeMem .line bytes with
  | error r => rfl
  | ok u =>
    have hu : u.mode = .directMaskAnd := by
      obtain ⟨-, rfl⟩ := (State.storeMem_ok_iff _ _ _ _).1 hstore
      exact hmode
    have hdispatch : (u.withMode .directMaskOr).dispatchLine k =
        (u.dispatchLine k).map (State.withMode .directMaskOr) := by
      rw [State.dispatchLine, State.dispatchLine, hu]
      exact State.withMode_passThrough .directMaskOr u u.bpl.toNat
    exact (congrArg (Progress.andThen · _) hdispatch).trans (Progress.map_andThen _ fun _ => rfl)

/-- Settles O19: the checks of a line do not read MODE, and the line itself only its dispatch. -/
theorem directModesTreatLinesAlike : Obligations.DirectModesTreatLinesAlike := by
  intro reserved k bytes pad s hmode
  change execEncodeLine reserved k bytes pad (s.withMode .directMaskOr) =
    mapNext (State.withMode .directMaskOr) (execEncodeLine reserved k bytes pad s)
  have hline : ((s.withMode .directMaskOr).encodeScanline k bytes).outcome =
      mapNext (State.withMode .directMaskOr) (s.encodeScanline k bytes).outcome := by
    rw [State.encodeScanline_withMode hmode]
    exact Progress.outcome_map _ fun _ => rfl
  simp only [execEncodeLine, apply_ite (mapNext (State.withMode .directMaskOr)), hline]
  rfl

end Sys2Proof.Machine
end

section
namespace Sys2Proof.Machine

/-! ## END_PAGE, the side band and a finished run (40_page_session.md R165, R166, R170, R175, R185) -/

/-- Settles O5: the two cases of `exec_cancel_eq`. -/
theorem cancelSetsLatchOrRequest : Obligations.CancelSetsLatchOrRequest := by
  intro s
  rw [exec_cancel_eq]
  exact ⟨fun hs => by rw [if_pos hs], fun hs => by rw [if_neg hs]⟩

/-- The items of a frame, with the length's bytes as quotient and remainder by 256 (R275). -/
theorem frameItems_eq (offset width bpl : Word) {length : BitVec 16} {payload : List Byte}
    (hlen : payload.length = length.toNat) :
    frameItems offset width bpl length payload =
      [.frameHeader offset width bpl, .byte (BitVec.ofNat 8 (payload.length / 256)),
        .byte (BitVec.ofNat 8 (payload.length % 256))] ++ payload.map .byte ++ [.frameTerminator] := by
  have hhigh : length.extractLsb' 8 8 = BitVec.ofNat 8 (length.toNat / 256) := by
    rw [BitVec.extractLsb', Nat.shiftRight_eq_div_pow]
  have hlow : length.extractLsb' 0 8 = BitVec.ofNat 8 (length.toNat % 256) := by
    rw [BitVec.extractLsb', Nat.shiftRight_zero]
    exact BitVec.eq_of_toNat_eq (by simp)
  rw [frameItems, hhigh, hlow, hlen]
  rfl

/-- END_PAGE flushes nothing in a direct mode or with CUR 0 (R166, R276). -/
theorem State.finalFlush_empty {s : State} (h : s.mode = .sparseDelta → s.cur = 0) : s.finalFlush = .done s := by
  rw [State.finalFlush]
  split
  · rfl
  · rfl
  · exact (State.flush_done_iff s s 0).2 (.inl ⟨h ‹_›, rfl⟩)

/-- END_PAGE flushes the chunk buffer of a SparseDelta page as one frame (R166, R281). -/
theorem State.finalFlush_buffered {s : State} {payload : List Byte} (hmode : s.mode = .sparseDelta) (hcur : s.cur ≠ 0)
    (hlen : payload.length = s.cur.toNat) (hheld : Holds s.cb 0 payload) :
    s.finalFlush =
      .done { s.emit (frameItems s.mark s.width s.bpl s.cur payload) with cur := 0, mark := 0 } := by
  rw [State.finalFlush, hmode]
  exact (State.flush_done_iff s _ 0).2 (.inr ⟨hcur, payload, hlen, hheld, rfl⟩)

theorem State.sampleCancel_eq (s : State) :
    s.sampleCancel = { s with session := if s.cancelReq then .canceling else s.session } := by
  rw [State.sampleCancel]
  split <;> rfl

/-- The end of END_PAGE, as one update (R165, R166). -/
theorem State.closePage_eq (s : State) :
    s.closePage = { s with
      out := s.out ++ if s.session = .canceling then [.deviceReset] else [.trailer s.cfg s.mode]
      cancelLatch := s.cancelLatch || decide (s.session = .canceling)
      cancelReq := false
      session := .idle } := by
  rw [State.closePage]
  by_cases h : s.session = .canceling <;> simp [h]

/-- Settles O21: the flush, if there is a buffer to flush, and then the close of the page. -/
theorem endPageClosesPage : Obligations.EndPageClosesPage := by
  intro payload s hopen hlen hheld
  have hexec : exec (.endPage 0) s =
      (s.sampleCancel.finalFlush.andThen fun u => .done u.closePage).outcome := by
    simp [exec, execEndPage, hopen]
  have hcanceling : (if s.cancelReq then .canceling else s.session) = Session.canceling ↔
      s.session = .canceling ∨ s.cancelReq = true := by
    cases s.cancelReq <;> simp
  rw [hexec]
  by_cases hbuffer : s.mode = .sparseDelta ∧ s.cur ≠ 0
  · obtain ⟨hmode, hcur⟩ := hbuffer
    have hflush := State.finalFlush_buffered (s.sampleCancel_mode.trans hmode)
      (s.sampleCancel_cur.trans_ne hcur) (hlen.trans (congrArg BitVec.toNat s.sampleCancel_cur.symm))
      (s.sampleCancel_cb ▸ hheld)
    rw [hflush, s.sampleCancel_eq]
    simp only [Progress.andThen_done, Progress.outcome_done, State.closePage_eq, State.emit, hcanceling,
      frameItems_eq _ _ _ hlen, hmode, hcur, ne_eq, not_false_eq_true, and_self, if_true, Bool.decide_or,
      Bool.decide_eq_true]
  · have hempty : s.mode = .sparseDelta → s.cur = 0 := fun hmode => not_not.1 fun hcur => hbuffer ⟨hmode, hcur⟩
    have hcur : (if s.mode = .sparseDelta then 0 else s.cur) = s.cur := by
      split
      · exact (hempty ‹_›).symm
      · rfl
    have hflush : s.sampleCancel.finalFlush = .done s.sampleCancel :=
      State.finalFlush_empty (by rwa [State.sampleCancel_mode, State.sampleCancel_cur])
    rw [hflush, s.sampleCancel_eq]
    simp only [Progress.andThen_done, Progress.outcome_done, State.closePage_eq, hcanceling, hcur,
      if_neg hbuffer, List.append_nil, Bool.decide_or, Bool.decide_eq_true]

/-- Settles O49: neither a fault nor what each of these operations does stores a byte; the flush of END_PAGE reads CB. -/
theorem nonStoringOperationsFrame : Obligations.NonStoringOperationsFrame := by
  intro i s t hi h
  rcases hi with ⟨r, rfl⟩ | ⟨r, c, n, rfl⟩ | rfl | ⟨n, rfl⟩
  · rcases exec_endPage_cases h with ⟨c, -, -, rfl⟩ | ⟨-, -, u, hu, rfl⟩
    · simp [SameMemories, SamePage]
    · rcases State.finalFlush_done_cases hu with ⟨rfl, -⟩ | ⟨-, -, payload, -, -, rfl⟩ <;>
        simp [SameMemories, SamePage, State.emit]
  · rcases exec_rleEncode_cases h with ⟨rfl, -⟩ | ⟨-, rfl⟩ <;>
      simp [SameMemories, SamePage, SameCursor, SameCancel]
  · rw [exec_cancel_eq] at h
    cases h
    split <;> simp [SameMemories, SamePage, SameCursor, SameFault]
  · cases h
    simp [SameMemories, SamePage, SameCursor, SameCancel, SameFault]

/-- Settles O55: with no word left, a step answers the next REG read or waits. -/
theorem finishedRunKeepsObservation : Obligations.FinishedRunKeepsObservation := by
  intro s hfin
  obtain ⟨hreads, hpend⟩ := (Bool.and_eq_true _ _).mp hfin
  replace hpend : s.pending = [] := List.isEmpty_iff.1 hpend
  have hdec : decode (s.pending ++ []) = .incomplete := by rw [hpend]; rfl
  cases hin : s.input with
  | nil =>
    refine ⟨_, stepWaitsForWords [] s hdec hin, ?_⟩
    simp [State.clean, State.finished, State.observe, hpend, hin]
  | cons x rest =>
    rw [hin] at hreads
    cases x with
    | read index =>
      have hrest : rest.all Input.isRead = true := hreads
      refine ⟨_, (stepRunsTheEvent [] rest s hdec).2.2 index hin, ?_⟩
      simp [State.clean, State.finished, State.observe, hpend, hin, hrest, Input.isRead, State.reply]
    | word w => cases hreads
    | cancel => cases hreads
    | reset => cases hreads

end Sys2Proof.Machine
end

section
namespace Sys2Proof.Machine

/-! ## RLE_ENCODE and the run alphabet (41_run_alphabet.md R200 to R204) -/

theorem exec_rleEncode (c : Byte) (n : Word) (s : State) :
    exec (.rleEncode 0 c n) s = .next (s.emitBytes (runBytes c n.toNat)) := rfl

theorem runBytes_of_lt_two (c : Byte) {n : Nat} (hn : n < 2) : runBytes c n = [c] := by
  rw [runBytes, if_neg (by omega), List.nil_append]

theorem runBytes_of_two_le (c : Byte) {n : Nat} (hn : 2 ≤ n) : runBytes c n = runTokens n ++ [c] := by
  rw [runBytes, if_pos hn]

/-- The tokens of a count, read off its decomposition (R203). -/
theorem runTokens_of_digits (q : Nat) {u r : Nat} (hu : u < 20) (hr : r < 20) :
    runTokens (400 * q + 20 * u + r) =
      List.replicate q tokenT400 ++ (if 1 ≤ u then [tokenT20 u] else []) ++ (if 1 ≤ r then [tokenT1 r] else []) := by
  have hq : (400 * q + 20 * u + r) / 400 = q := by omega
  have hrest : (400 * q + 20 * u + r) % 400 = 20 * u + r := by omega
  have htwenties : (20 * u + r) / 20 = u := by omega
  have hones : (20 * u + r) % 20 = r := by omega
  have hguard : 20 ≤ 20 * u + r ↔ 1 ≤ u := by omega
  simp only [runTokens, twenties, ones, hq, hrest, htwenties, hones, hguard, Nat.lt_iff_add_one_le, Nat.zero_add]

/-- A count below 20 takes one token, or none. -/
theorem runTokens_of_lt_twenty {n : Nat} (hn : n < 20) : runTokens n = if 1 ≤ n then [tokenT1 n] else [] := by
  have h := runTokens_of_digits 0 (u := 0) (by decide) hn
  rwa [Nat.mul_zero, Nat.zero_add] at h

/-- How many tokens a count takes (R204). -/
theorem length_runTokens (n : Nat) :
    (runTokens n).length = n / 400 + (if 20 ≤ n % 400 then 1 else 0) + (if 1 ≤ n % 20 then 1 else 0) := by
  have hones : n % 400 % 20 = n % 20 := Nat.mod_mod_of_dvd n (by decide)
  simp only [runTokens, twenties, ones, hones, List.length_append, List.length_replicate, apply_ite List.length,
    List.length_singleton, List.length_nil, Nat.lt_iff_add_one_le, Nat.zero_add]

/-- Settles O22: the count has one decomposition, and its tokens are read off it. -/
theorem rleEmitsDecomposition : Obligations.RleEmitsDecomposition := by
  intro c n s
  rw [exec_rleEncode]
  constructor
  · intro hn
    rw [runBytes_of_lt_two c hn]
    rfl
  · intro hn
    have hsum : 400 * (n.toNat / 400) + 20 * (n.toNat % 400 / 20) + n.toNat % 20 = n.toNat := by omega
    have hu : n.toNat % 400 / 20 < 20 := by omega
    have hr : n.toNat % 20 < 20 := Nat.mod_lt _ (by decide)
    refine ⟨_, _, _, hsum, hu, hr, by omega, ?_⟩
    rw [runBytes_of_two_le c hn, ← runTokens_of_digits _ hu hr, hsum]
    rfl

/-- Settles O23: 400 more of a count is one more of its 400s, and below 400 the count's digits are its tokens. -/
theorem runTokensAreGreedy : Obligations.RunTokensAreGreedy := by
  refine ⟨fun n hn => ?_, fun n hlow hhigh => ?_, fun n hpos hlt => ?_, fun c n => ?_⟩
  · obtain ⟨m, rfl⟩ := Nat.exists_eq_add_of_le' hn
    rw [Nat.add_sub_cancel, runTokens, Nat.add_div_right m (by decide), Nat.add_mod_right, List.replicate_succ]
    rfl
  · have hr : n % 20 < 20 := Nat.mod_lt n (by decide)
    have hn := runTokens_of_digits 0 (u := n / 20) (by omega) hr
    rw [Nat.mul_zero, Nat.zero_add, Nat.div_add_mod, if_pos (show 1 ≤ n / 20 by omega)] at hn
    rw [hn, runTokens_of_lt_twenty hr]
    rfl
  · rw [runTokens_of_lt_twenty hlt, if_pos (show 1 ≤ n from hpos)]
  · split
    · exact runBytes_of_lt_two c (by omega)
    · exact runBytes_of_two_le c (by omega)

/-- Settles O24: the tokens, if the count is guarded in, and the character. -/
theorem rleOutputLength : Obligations.RleOutputLength := by
  intro c n s t h
  rw [exec_rleEncode] at h
  cases h
  rw [State.emitBytes_out, List.length_append, List.length_map]
  split
  · rw [runBytes_of_lt_two c (by omega), List.length_singleton]
  · rw [runBytes_of_two_le c (by omega), List.length_append, length_runTokens, List.length_singleton]

/-- The 39 tokens are the alphabet's images of 0 to 38 (R202, log entry 12). -/
theorem tokens_eq_map_runAlphabet :
    tokenT400 :: ((List.range 19).map fun u => tokenT20 (u + 1)) ++ ((List.range 19).map fun r => tokenT1 (r + 1)) =
      ((List.range 39).map (BitVec.ofNat 8)).map Config.runAlphabet := rfl

/-- Settles O25: a permutation keeps the bytes 0 to 38 distinct. -/
theorem runAlphabetIsDistinct : Obligations.RunAlphabetIsDistinct := by
  have hbytes : ((List.range 39).map (BitVec.ofNat 8)).Nodup := by decide
  rw [Obligations.RunAlphabetIsDistinct, tokens_eq_map_runAlphabet]
  exact hbytes.map Config.runAlphabet.injective

end Sys2Proof.Machine
end

section
namespace Sys2Proof.Machine

/-! ## The presence bytes of a line's staging (42_sparse_delta.md R233, R234, R236) -/

/-- The mask of child `i` holds bit `7 - i` alone. -/
theorem getLsbD_presenceMask : ∀ i < 8, ∀ j < 8, (0x80#8 >>> i).getLsbD (7 - j) = decide (j = i) := by
  decide

/-- Bit `7 - j` after the masks of the present children among `js` are ORed in. -/
theorem getLsbD_foldl_presence (present : Nat → Bool) {j : Nat} (hj : j < 8) (js : List Nat) (hjs : ∀ i ∈ js, i < 8)
    (acc : Byte) :
    (js.foldl (fun acc i => if present i then acc ||| (0x80#8 >>> i) else acc) acc).getLsbD (7 - j) =
      (acc.getLsbD (7 - j) || (decide (j ∈ js) && present j)) := by
  induction js generalizing acc with
  | nil => simp
  | cons i js ih =>
    have hi := getLsbD_presenceMask i (hjs i List.mem_cons_self) j hj
    rw [List.foldl_cons, ih fun k hk => hjs k (List.mem_cons_of_mem i hk)]
    by_cases hji : j = i
    · subst hji
      cases hp : present j <;> simp [hi]
    · cases hp : present i <;> simp [hi, hji]

/-- Bit `7 - j` of a presence byte says whether child `j` is present. -/
theorem getLsbD_presence (present : Nat → Bool) {j : Nat} (hj : j < 8) :
    (presence present).getLsbD (7 - j) = present j := by
  rw [presence, getLsbD_foldl_presence present hj _ fun i hi => List.mem_range.1 hi]
  simp [hj]

theorem presence_eq_zero_iff {present : Nat → Bool} : presence present = 0 ↔ ∀ j < 8, present j = false := by
  refine ⟨fun h j hj => ?_, presence_eq_zero⟩
  rw [← getLsbD_presence present hj, h]
  exact BitVec.getLsbD_zero

theorem presence_congr {p q : Nat → Bool} (h : ∀ j < 8, p j = q j) : presence p = presence q := by
  have hrange : List.range 8 = [0, 1, 2, 3, 4, 5, 6, 7] := rfl
  simp [presence, hrange, h]

/-- `MID[t]`, from the leaf bytes (R234). -/
def midByte (delta : List Byte) (t : Nat) : Byte := presence fun s => leafByte delta t s != 0

/-- TOP, from the mid bytes (R236). -/
def topByte (delta : List Byte) : Byte := presence fun t => midByte delta t != 0

theorem Staging.ofDelta_mid_getD (delta : List Byte) {t : Nat} (ht : t < 8) :
    (Staging.ofDelta delta).mid.getD t 0 = midByte delta t := by
  rw [Staging.ofDelta_mid delta ht]
  exact presence_congr fun s hs => by rw [Staging.ofDelta_leaf delta ht hs]

theorem Staging.ofDelta_top (delta : List Byte) : (Staging.ofDelta delta).top = topByte delta :=
  presence_congr fun _ ht => congrArg (· != 0) (Staging.ofDelta_mid_getD delta ht)

/-- A presence byte is 0 exactly if all its children are. -/
theorem presence_bne_eq_zero_iff {child : Nat → Byte} :
    (presence fun j => child j != 0) = 0 ↔ ∀ j < 8, child j = 0 := by
  rw [presence_eq_zero_iff]
  simp only [bne_eq_false_iff_eq]

theorem leafByte_eq_zero_iff {delta : List Byte} {t s : Nat} :
    leafByte delta t s = 0 ↔ ∀ j < 8, slotByte delta t s j = 0 :=
  presence_bne_eq_zero_iff

theorem midByte_eq_zero_iff {delta : List Byte} {t : Nat} :
    midByte delta t = 0 ↔ ∀ s < 8, leafByte delta t s = 0 :=
  presence_bne_eq_zero_iff

theorem topByte_eq_zero_iff {delta : List Byte} : topByte delta = 0 ↔ ∀ t < 8, midByte delta t = 0 :=
  presence_bne_eq_zero_iff

/-- Settles O26: each presence byte is `presence` of whether its children are not zero. -/
theorem presenceBitsNameChildren : Obligations.PresenceBitsNameChildren := by
  intro delta t s j ht hs hj
  rw [Staging.ofDelta_leaf delta ht hs, Staging.ofDelta_mid_getD delta ht, Staging.ofDelta_top]
  refine ⟨?_, ?_, ?_⟩
  · rw [leafByte, getLsbD_presence _ hj, bne_iff_ne]
    rfl
  · rw [midByte, getLsbD_presence _ hs, bne_iff_ne]
  · rw [topByte, getLsbD_presence _ ht, bne_iff_ne]

end Sys2Proof.Machine
end

section
namespace Sys2Proof.Machine

/-! ## The code of a presence-coded group, and the walk as three levels of it (42_sparse_delta.md R238, R240) -/

/-- The presence byte of a group, then the codes of the children that are present. -/
def groupCode (present : Nat → Bool) (code : Nat → List Byte) : List Byte :=
  presence present :: ((List.range 8).filter present).flatMap code

/-- The code of sub-group `s` of top group `t`: the leaf byte and the delta bytes that are not zero. -/
def subGroupCode (delta : List Byte) (t s : Nat) : List Byte :=
  groupCode (fun j => slotByte delta t s j != 0) fun j => [slotByte delta t s j]

/-- The code of top group `t`: the mid byte and the codes of its sub-groups. -/
def topGroupCode (delta : List Byte) (t : Nat) : List Byte :=
  groupCode (fun s => leafByte delta t s != 0) (subGroupCode delta t)

/-- The present children are those that contribute, if an absent one contributes nothing. -/
theorem flatMap_range_eq_filter {present : Nat → Bool} {part code : Nat → List Byte} {k : Nat}
    (hpart : ∀ j < k, part j = if present j then code j else []) :
    (List.range k).flatMap part = ((List.range k).filter present).flatMap code := by
  rw [List.flatMap_congr fun j hj => hpart j (List.mem_range.1 hj)]
  induction List.range k with
  | nil => rfl
  | cons j js ih => cases hp : present j <;> simp [hp, ih]

/-- Skipping zero bytes, a group is its code if its presence byte is not zero, and nothing otherwise (R239). -/
theorem nonZero_presence_append {present : Nat → Bool} {part code : Nat → List Byte}
    (hpart : ∀ j < 8, part j = if present j then code j else []) :
    nonZero (presence present) ++ (List.range 8).flatMap part =
      if presence present != 0 then groupCode present code else [] := by
  by_cases h0 : presence present = 0
  · have habsent := presence_eq_zero_iff.1 h0
    have hnone : (List.range 8).flatMap part = [] :=
      List.flatMap_eq_nil_iff.2 fun j hj => by
        rw [hpart j (List.mem_range.1 hj), habsent j (List.mem_range.1 hj)]
        rfl
    rw [hnone, h0]
    rfl
  · rw [if_pos (bne_iff_ne.2 h0), nonZero, if_neg h0, flatMap_range_eq_filter hpart]
    rfl

theorem Staging.walkLeaf_ofDelta (delta : List Byte) {t s : Nat} (ht : t < 8) (hs : s < 8) :
    (Staging.ofDelta delta).walkLeaf t s = if leafByte delta t s != 0 then subGroupCode delta t s else [] := by
  rw [Staging.walkLeaf, Staging.ofDelta_leaf delta ht hs]
  exact nonZero_presence_append fun j _ => by simp [nonZero, Staging.ofDelta]

theorem Staging.walkMid_ofDelta (delta : List Byte) {t : Nat} (ht : t < 8) :
    (Staging.ofDelta delta).walkMid t = if midByte delta t != 0 then topGroupCode delta t else [] := by
  rw [Staging.walkMid, Staging.ofDelta_mid_getD delta ht]
  exact nonZero_presence_append fun s hs => Staging.walkLeaf_ofDelta delta ht hs

/-- The test of TOP makes no difference to the bytes appended (R240). -/
theorem Staging.walk_ofDelta (delta : List Byte) :
    (Staging.ofDelta delta).walk =
      topByte delta :: (List.range 8).flatMap fun t => (Staging.ofDelta delta).walkMid t := by
  rw [Staging.walk, Staging.ofDelta_top]
  split
  next h0 =>
    have hnone : ((List.range 8).flatMap fun t => (Staging.ofDelta delta).walkMid t) = [] :=
      List.flatMap_eq_nil_iff.2 fun t ht => by
        have ht := List.mem_range.1 ht
        rw [Staging.walkMid_ofDelta delta ht, topByte_eq_zero_iff.1 h0 t ht]
        rfl
    rw [hnone]
  next => rfl

/-- The walk as a group of top groups. -/
theorem Staging.walk_eq_groupCode (delta : List Byte) :
    (Staging.ofDelta delta).walk = groupCode (fun t => midByte delta t != 0) (topGroupCode delta) := by
  rw [Staging.walk_ofDelta, flatMap_range_eq_filter fun t ht => Staging.walkMid_ofDelta delta ht]
  rfl

/-- The delta bytes of a sub-group, as the closed form lists them: a position past the end counts as zero. -/
theorem map_filter_slots (delta : List Byte) (t s : Nat) :
    ((((List.range 8).map fun j => 64 * t + 8 * s + j).filter fun i =>
        decide (i < delta.length) && (delta.getD i 0 != 0)).map fun i => delta.getD i 0) =
      ((List.range 8).filter fun j => slotByte delta t s j != 0).flatMap fun j => [slotByte delta t s j] := by
  rw [List.filter_map, List.map_map, ← List.map_eq_flatMap]
  refine congrArg (List.map _) (List.filter_congr fun j _ => ?_)
  by_cases hj : 64 * t + 8 * s + j < delta.length
  · simp [hj, slotByte]
  · simp [hj, slotByte_eq_zero (not_lt.1 hj)]

/-- The closed form as a group of top groups. -/
theorem lineCode_eq_groupCode (delta : List Byte) :
    lineCode delta = groupCode (fun t => midByte delta t != 0) (topGroupCode delta) := by
  have hleaf : ∀ t < 8, ∀ s < 8, ((Staging.ofDelta delta).leaf.getD t []).getD s 0 = leafByte delta t s :=
    fun t ht s hs => Staging.ofDelta_leaf delta ht hs
  have hmid : ∀ t < 8, (Staging.ofDelta delta).mid.getD t 0 = midByte delta t :=
    fun t ht => Staging.ofDelta_mid_getD delta ht
  simp only [lineCode, map_filter_slots, Staging.ofDelta_top]
  refine congrArg (topByte delta :: ·) ?_
  rw [List.filter_congr fun t ht => congrArg (· != 0) (hmid t (List.mem_range.1 ht))]
  refine List.flatMap_congr fun t ht => ?_
  have ht := List.mem_range.1 (List.mem_filter.1 ht).1
  rw [hmid t ht, List.filter_congr fun s hs => congrArg (· != 0) (hleaf t ht s (List.mem_range.1 hs))]
  refine congrArg (midByte delta t :: ·) (List.flatMap_congr fun s hs => ?_)
  rw [hleaf t ht s (List.mem_range.1 (List.mem_filter.1 hs).1)]
  rfl

/-- The walk of a line's staging is the closed form, whatever its length. -/
theorem Staging.walk_eq_lineCode (delta : List Byte) : (Staging.ofDelta delta).walk = lineCode delta :=
  (Staging.walk_eq_groupCode delta).trans (lineCode_eq_groupCode delta).symm

/-- Settles O27: both are the same three levels of presence-coded groups. -/
theorem walkIsClosedForm : Obligations.WalkIsClosedForm := fun delta _ => Staging.walk_eq_lineCode delta

/-! ## The cost of an unchanged line and of one changed byte (42_sparse_delta.md R243, R244) -/

/-- A line against itself has no delta byte that is not zero. -/
theorem slotByte_deltaOf_self (bytes : List Byte) (t s j : Nat) : slotByte (deltaOf bytes bytes) t s j = 0 := by
  rw [slotByte, deltaOf, List.zipWith_self, List.getD_eq_getElem?_getD, List.getElem?_map]
  cases bytes[64 * t + 8 * s + j]? <;> simp

/-- Settles O28: with no delta byte set, no leaf, mid or top bit is, and the walk stops at TOP. -/
theorem unchangedLineCostsOneByte : Obligations.UnchangedLineCostsOneByte := by
  intro line
  have htop : topByte (deltaOf line line) = 0 :=
    topByte_eq_zero_iff.2 fun t _ => midByte_eq_zero_iff.2 fun s _ => leafByte_eq_zero_iff.2 fun j _ =>
      slotByte_deltaOf_self line t s j
  rw [Staging.walk, Staging.ofDelta_top, htop]
  rfl

/-- The presence byte and the list of present children of a group with child `i` alone. -/
theorem presence_and_filter_single : ∀ i < 8, presence (fun j => decide (j = i)) = 0x80#8 >>> i ∧
    (List.range 8).filter (fun j => decide (j = i)) = [i] := by
  decide

/-- The code of a group with one child present. -/
theorem groupCode_single {present : Nat → Bool} {code : Nat → List Byte} {i : Nat} (hi : i < 8)
    (h : ∀ j < 8, present j = true ↔ j = i) : groupCode present code = (0x80#8 >>> i) :: code i := by
  obtain ⟨hbyte, hlist⟩ := presence_and_filter_single i hi
  have hpresent : ∀ j < 8, present j = decide (j = i) := fun j hj => by rw [Bool.eq_iff_iff, h j hj, decide_eq_true_eq]
  rw [groupCode, presence_congr hpresent, hbyte, List.filter_congr fun j hj => hpresent j (List.mem_range.1 hj), hlist,
    List.flatMap_singleton]

/-- Settles O29: each level holds one present child, found by the digits of the byte's position. -/
theorem oneChangedByteCostsFour : Obligations.OneChangedByteCostsFour := by
  intro delta i hmax hi hne hzero
  have hslot : ∀ t s j, slotByte delta t s j ≠ 0 ↔ 64 * t + 8 * s + j = i := fun t s j =>
    ⟨fun h => by_contra fun hji => h (hzero _ hji), fun h => by rw [slotByte, h]; exact hne⟩
  have hleaf : ∀ t < 8, ∀ s < 8, leafByte delta t s ≠ 0 ↔ 8 * t + s = i / 8 := fun t _ s _ => by
    rw [Ne, leafByte_eq_zero_iff]
    push Not
    refine ⟨fun ⟨j, hj, h⟩ => ?_, fun h => ⟨i % 8, Nat.mod_lt _ (by decide), ?_⟩⟩
    · have := (hslot t s j).1 h
      omega
    · exact (hslot t s _).2 (by omega)
  have hmid : ∀ t < 8, midByte delta t ≠ 0 ↔ t = i / 64 := fun t ht => by
    rw [Ne, midByte_eq_zero_iff]
    push Not
    refine ⟨fun ⟨s, hs, h⟩ => ?_, fun h => ⟨i / 8 % 8, Nat.mod_lt _ (by decide), ?_⟩⟩
    · have := (hleaf t ht s hs).1 h
      omega
    · exact (hleaf t ht _ (Nat.mod_lt _ (by decide))).2 (by omega)
  have hbyte : slotByte delta (i / 64) (i / 8 % 8) (i % 8) = delta.getD i 0 :=
    congrArg (delta.getD · 0) (by omega)
  have ht : i / 64 < 8 := by omega
  have hs : i / 8 % 8 < 8 := Nat.mod_lt _ (by decide)
  have hj : i % 8 < 8 := Nat.mod_lt _ (by decide)
  rw [Staging.walk_eq_groupCode,
    groupCode_single ht fun t ht => bne_iff_ne.trans (hmid t ht),
    topGroupCode,
    groupCode_single hs fun s hs => bne_iff_ne.trans ((hleaf _ ht s hs).trans (by omega)),
    subGroupCode,
    groupCode_single hj fun j _ => bne_iff_ne.trans ((hslot _ _ j).trans (by omega)),
    hbyte]

end Sys2Proof.Machine
end

section
namespace Sys2Proof.Machine

/-! ## The delta bytes, level by level (42_sparse_delta.md R232) -/

/-- The delta bytes of sub-group `s` of top group `t`, absent ones as 0. -/
def subGroupBytes (delta : List Byte) (t s : Nat) : List Byte := (List.range 8).map (slotByte delta t s)

/-- The delta bytes of top group `t`, absent ones as 0. -/
def topGroupBytes (delta : List Byte) (t : Nat) : List Byte := (List.range 8).flatMap (subGroupBytes delta t)

/-- Rows of `k` values, numbered on from row to row. -/
theorem flatMap_range_map_range {α : Type} (f : Nat → α) (k m : Nat) :
    ((List.range m).flatMap fun i => (List.range k).map fun j => f (k * i + j)) = (List.range (k * m)).map f := by
  induction m with
  | zero => rfl
  | succ m ih =>
    rw [List.range_succ, List.flatMap_append, ih, List.flatMap_singleton, Nat.mul_succ, List.range_add,
      List.map_append, List.map_map]
    rfl

/-- The groups together are the delta, filled up with zeros to 512 bytes. -/
theorem flatMap_topGroupBytes {delta : List Byte} (h : delta.length ≤ 512) :
    (List.range 8).flatMap (topGroupBytes delta) = delta ++ List.replicate (512 - delta.length) 0 := by
  have hgroup : ∀ t, topGroupBytes delta t = (List.range 64).map fun i => delta.getD (64 * t + i) 0 := fun t => by
    rw [← flatMap_range_map_range (fun i => delta.getD (64 * t + i) 0) 8 8]
    simp only [← Nat.add_assoc]
    rfl
  rw [funext hgroup, flatMap_range_map_range (fun i => delta.getD i 0) 64 8]
  refine List.ext_getElem (by simp; omega) fun i _ _ => ?_
  by_cases hi : i < delta.length <;> simp [hi, List.getElem_append]

theorem subGroupBytes_of_leafByte_eq_zero {delta : List Byte} {t s : Nat} (h : leafByte delta t s = 0) :
    subGroupBytes delta t s = List.replicate 8 0 :=
  List.eq_replicate_iff.2 ⟨rfl, by simpa [subGroupBytes] using leafByte_eq_zero_iff.1 h⟩

theorem topGroupBytes_of_midByte_eq_zero {delta : List Byte} {t : Nat} (h : midByte delta t = 0) :
    topGroupBytes delta t = List.replicate 64 0 := by
  rw [topGroupBytes, List.flatMap_congr fun s hs =>
    subGroupBytes_of_leafByte_eq_zero (midByte_eq_zero_iff.1 h s (List.mem_range.1 hs))]
  rfl

end Sys2Proof.Machine
end

section
namespace Sys2Proof.Machine

/-! ## Reading a line back (42_sparse_delta.md R247) -/

section Reader

variable {child : List Byte → Option (List Byte × List Byte)} {width : Nat} {present : Nat → Bool}
  {code data : Nat → List Byte}

/-- Reading the codes of the present children among `js` gives the data of all of `js`. -/
theorem readChildren_flatMap (hpresent : ∀ j, present j = true → ∀ rest, child (code j ++ rest) = some (data j, rest))
    (habsent : ∀ j, present j = false → data j = List.replicate width 0) (js : List Nat) (hjs : ∀ j ∈ js, j < 8)
    (rest : List Byte) :
    readChildren child width (presence present) js ((js.filter present).flatMap code ++ rest) =
      some (js.flatMap data, rest) := by
  induction js with
  | nil => rfl
  | cons j js ih =>
    have ih := ih fun i hi => hjs i (List.mem_cons_of_mem j hi)
    rw [readChildren, getLsbD_presence present (hjs j List.mem_cons_self)]
    cases hj : present j with
    | true =>
      rw [List.filter_cons_of_pos hj, List.flatMap_cons, List.append_assoc, hpresent j hj]
      simp [ih]
    | false =>
      rw [List.filter_cons_of_neg (by simp [hj])]
      simp [ih, habsent j hj]

/-- A group is read back from its code, if each present child is read back from its own and an absent one is zeros. -/
theorem readGroup_groupCode (hpresent : ∀ j, present j = true → ∀ rest, child (code j ++ rest) = some (data j, rest))
    (habsent : ∀ j, present j = false → data j = List.replicate width 0) (rest : List Byte) :
    readGroup child width (groupCode present code ++ rest) = some ((List.range 8).flatMap data, rest) :=
  readChildren_flatMap hpresent habsent (List.range 8) (fun _ hj => List.mem_range.1 hj) rest

end Reader

theorem readGroup_subGroupCode (delta : List Byte) (t s : Nat) (rest : List Byte) :
    readGroup readByte 1 (subGroupCode delta t s ++ rest) = some (subGroupBytes delta t s, rest) := by
  rw [subGroupBytes, List.map_eq_flatMap]
  exact readGroup_groupCode (fun _ _ _ => rfl) (fun j hj => by rw [bne_eq_false_iff_eq.1 hj]; rfl) rest

theorem readGroup_topGroupCode (delta : List Byte) (t : Nat) (rest : List Byte) :
    readGroup (readGroup readByte 1) 8 (topGroupCode delta t ++ rest) = some (topGroupBytes delta t, rest) :=
  readGroup_groupCode (fun s _ => readGroup_subGroupCode delta t s)
    (fun _ hs => subGroupBytes_of_leafByte_eq_zero (bne_eq_false_iff_eq.1 hs)) rest

/-- The walk of a delta of at most 512 bytes is read back as the delta, filled up with zeros. -/
theorem readDelta_walk {delta : List Byte} (h : delta.length ≤ 512) (rest : List Byte) :
    readDelta ((Staging.ofDelta delta).walk ++ rest) =
      some (delta ++ List.replicate (512 - delta.length) 0, rest) := by
  rw [Staging.walk_eq_groupCode, ← flatMap_topGroupBytes h]
  exact readGroup_groupCode (fun t _ => readGroup_topGroupCode delta t)
    (fun _ ht => topGroupBytes_of_midByte_eq_zero (bne_eq_false_iff_eq.1 ht)) rest

/-- The delta of a line against a reference, XORed with the reference, is the line (R231). -/
theorem zipWith_xor_deltaOf {bytes ref : List Byte} (h : bytes.length = ref.length) :
    List.zipWith (· ^^^ ·) (deltaOf bytes ref) ref = bytes := by
  refine List.ext_getElem (by simp [deltaOf, h]) fun i _ _ => ?_
  simp [deltaOf]

theorem length_deltaOf {bytes ref : List Byte} (h : bytes.length = ref.length) :
    (deltaOf bytes ref).length = ref.length := by
  rw [deltaOf, List.length_zipWith, h, Nat.min_self]

/-- Settles O32: the reader gives the delta back, filled up with zeros past the reference's end. -/
theorem lineCodeIsDecodable : Obligations.LineCodeIsDecodable := by
  intro line ref rest hlen hmax
  have hdelta := length_deltaOf hlen
  rw [readLine, readDelta_walk (hdelta.trans_le hmax)]
  simp only [List.take_left' hdelta, zipWith_xor_deltaOf hlen]

end Sys2Proof.Machine
end

section
namespace Sys2Proof.Machine

/-! ## The exact length of a line's code (42_sparse_delta.md R245, R246) -/

/-- Counting non-zero bytes is counting what skipping zeros leaves. -/
theorem length_nonZero (b : Byte) : (nonZero b).length = countNonZero [b] := by
  by_cases hb : b = 0
  · rw [hb]
    rfl
  · rw [nonZero, if_neg hb, countNonZero, List.countP_singleton, if_pos (bne_iff_ne.2 hb), List.length_singleton]

theorem countNonZero_map {α : Type} (f : α → Byte) (l : List α) :
    countNonZero (l.map f) = (l.map fun x => (nonZero (f x)).length).sum := by
  rw [List.map_eq_flatMap, countNonZero, List.countP_flatMap]
  simp only [length_nonZero]
  rfl

theorem countNonZero_flatMap {α : Type} (f : α → List Byte) (l : List α) :
    countNonZero (l.flatMap f) = (l.map fun x => countNonZero (f x)).sum :=
  List.countP_flatMap

theorem Staging.ofDelta_mid_eq_map (delta : List Byte) :
    (Staging.ofDelta delta).mid = (List.range 8).map (midByte delta) := by
  refine List.ext_getElem (by simp [Staging.ofDelta]) fun t _ ht => ?_
  have ht : t < 8 := by simpa using ht
  have hmid := Staging.ofDelta_mid_getD delta ht
  rw [List.getD_eq_getElem _ _ (by simpa [Staging.ofDelta] using ht)] at hmid
  rw [hmid, List.getElem_map, List.getElem_range]

theorem Staging.ofDelta_leaf_flatten (delta : List Byte) :
    (Staging.ofDelta delta).leaf.flatten = (List.range 8).flatMap fun t => (List.range 8).map (leafByte delta t) :=
  rfl

/-- A delta and its groups have the same bytes that are not zero. -/
theorem countNonZero_eq_groups {delta : List Byte} (h : delta.length ≤ 512) :
    countNonZero delta =
      ((List.range 8).map fun t => ((List.range 8).map fun s => countNonZero (subGroupBytes delta t s)).sum).sum := by
  have hpad : countNonZero (List.replicate (512 - delta.length) 0) = 0 := by simp [countNonZero]
  calc countNonZero delta
      = countNonZero (delta ++ List.replicate (512 - delta.length) 0) := by
        rw [countNonZero, countNonZero, List.countP_append]
        exact (Nat.add_eq_left.2 hpad).symm
    _ = _ := by
        rw [← flatMap_topGroupBytes h, countNonZero_flatMap]
        simp only [topGroupBytes, countNonZero_flatMap]

theorem Staging.length_walkLeaf (delta : List Byte) {t s : Nat} (ht : t < 8) (hs : s < 8) :
    ((Staging.ofDelta delta).walkLeaf t s).length =
      (nonZero (leafByte delta t s)).length + countNonZero (subGroupBytes delta t s) := by
  rw [Staging.walkLeaf, Staging.ofDelta_leaf delta ht hs, List.length_append, List.length_flatMap, subGroupBytes,
    countNonZero_map]
  rfl

theorem Staging.length_walkMid (delta : List Byte) {t : Nat} (ht : t < 8) :
    ((Staging.ofDelta delta).walkMid t).length =
      (nonZero (midByte delta t)).length + (countNonZero ((List.range 8).map (leafByte delta t)) +
        ((List.range 8).map fun s => countNonZero (subGroupBytes delta t s)).sum) := by
  rw [Staging.walkMid, Staging.ofDelta_mid_getD delta ht, List.length_append, List.length_flatMap,
    List.map_congr_left fun s hs => Staging.length_walkLeaf delta ht (List.mem_range.1 hs), List.sum_map_add,
    countNonZero_map]

/-- The walk has TOP and the mid, leaf and delta bytes that are not zero. -/
theorem Staging.length_walk {delta : List Byte} (h : delta.length ≤ 512) :
    (Staging.ofDelta delta).walk.length =
      1 + countNonZero (Staging.ofDelta delta).mid + countNonZero (Staging.ofDelta delta).leaf.flatten
        + countNonZero delta := by
  rw [Staging.walk_ofDelta, List.length_cons, List.length_flatMap,
    List.map_congr_left fun t ht => Staging.length_walkMid delta (List.mem_range.1 ht), List.sum_map_add,
    List.sum_map_add, countNonZero_eq_groups h, Staging.ofDelta_leaf_flatten, countNonZero_flatMap,
    Staging.ofDelta_mid_eq_map, countNonZero_map]
  omega

/-- Of `k` bytes of which the first `c`, and no others, are not zero, as many are not zero. -/
theorem countNonZero_map_range {f : Nat → Byte} {c : Nat} (k : Nat) (h : ∀ i < k, f i ≠ 0 ↔ i < c) :
    countNonZero ((List.range k).map f) = min k c := by
  induction k with
  | zero => simp [countNonZero]
  | succ k ih =>
    have hlast : countNonZero [f k] = if k < c then 1 else 0 := by
      by_cases hk : f k = 0 <;> simp [countNonZero, hk, ← h k k.lt_succ_self]
    rw [List.range_succ, List.map_append, countNonZero, List.countP_append]
    change countNonZero ((List.range k).map f) + countNonZero [f k] = _
    rw [ih fun i hi => h i (by omega), hlast]
    split <;> omega

/-- A leaf byte depends on the position of its sub-group alone. -/
theorem leafByte_eq_leafByte_zero (delta : List Byte) (t s : Nat) :
    leafByte delta t s = leafByte delta 0 (8 * t + s) := by
  have hpos : ∀ j, slotByte delta t s j = slotByte delta 0 (8 * t + s) j := fun j =>
    congrArg (delta.getD · 0) (by omega)
  simp only [leafByte, hpos]

section Full

variable {delta : List Byte} (hfull : ∀ b ∈ delta, b ≠ 0)
include hfull

theorem leafByte_ne_zero_of_full {t s : Nat} : leafByte delta t s ≠ 0 ↔ 64 * t + 8 * s < delta.length := by
  refine ⟨fun h => by_contra fun hpast => h (leafByte_eq_zero (not_lt.1 hpast)), fun h h0 => ?_⟩
  have hfirst : slotByte delta t s 0 = delta[64 * t + 8 * s] := List.getD_eq_getElem _ _ h
  exact hfull _ (List.getElem_mem h) (hfirst ▸ leafByte_eq_zero_iff.1 h0 0 (by decide))

theorem midByte_ne_zero_of_full {t : Nat} : midByte delta t ≠ 0 ↔ 64 * t < delta.length := by
  rw [Ne, midByte_eq_zero_iff]
  push Not
  simp only [leafByte_ne_zero_of_full hfull]
  exact ⟨fun ⟨s, _, h⟩ => by omega, fun h => ⟨0, by decide, h⟩⟩

/-- With every delta byte changed, each group that holds one has a presence byte that is not zero. -/
theorem Staging.length_walk_of_full (h : delta.length ≤ 512) :
    (Staging.ofDelta delta).walk.length = lineMax delta.length := by
  have hdelta : countNonZero delta = delta.length :=
    List.countP_eq_length.2 fun b hb => bne_iff_ne.2 (hfull b hb)
  have hleaf : countNonZero (Staging.ofDelta delta).leaf.flatten = min 64 (ceilDiv delta.length 8) := by
    have hrows := flatMap_range_map_range (leafByte delta 0) 8 8
    simp only [← leafByte_eq_leafByte_zero] at hrows
    rw [Staging.ofDelta_leaf_flatten, hrows]
    exact countNonZero_map_range _ fun i _ => by
      rw [leafByte_ne_zero_of_full hfull, ceilDiv]
      omega
  have hmid : countNonZero (Staging.ofDelta delta).mid = min 8 (ceilDiv delta.length 64) := by
    rw [Staging.ofDelta_mid_eq_map]
    exact countNonZero_map_range _ fun t _ => by
      rw [midByte_ne_zero_of_full hfull, ceilDiv]
      omega
  rw [Staging.length_walk h, hdelta, hleaf, hmid, lineMax, ceilDiv, ceilDiv]
  omega

end Full

/-- Settles O30: the bytes of the walk counted by level, the bound of the pre-check's proof, and the full delta. -/
theorem lineLengthIsExact : Obligations.LineLengthIsExact := fun delta _ hmax =>
  ⟨Staging.length_walk hmax, Staging.length_walk_le_lineMax delta, fun hfull => Staging.length_walk_of_full hfull hmax⟩

/-- Settles O31: both ceilings are 1 up to 8 bytes, and from 9 on `W` has at least one more. -/
theorem worstCaseBoundHolds : Obligations.WorstCaseBoundHolds := by
  intro n hpos hmax
  refine ⟨lineMax_le_worstCase hpos, ?_, ?_⟩ <;> simp only [lineMax, worstCase, ceilDiv] <;> omega

end Sys2Proof.Machine
end

section
namespace Sys2Proof.Machine

/-! ## Appending a line's code to the chunk buffer (42_sparse_delta.md R241, 43_chunk_framer.md R272, R274) -/

theorem State.appendBytes_nil {s : State} (hwf : s.cb.wf = true) : s.appendBytes [] = .done s := by
  refine (State.appendBytes_done_iff s s []).2 ⟨Nat.zero_le _, ?_⟩
  rw [Memory.store_nil hwf]
  simp

/-- A full buffer takes no byte. -/
theorem State.appendBytes_full {s : State} (hwf : s.cb.wf = true) (hfull : s.cur.toNat = Config.cbCap) (b : Byte)
    (bs : List Byte) : s.appendBytes (b :: bs) = .capacity s := by
  have hroom : s.room = 0 := by rw [State.room, hfull, Nat.sub_self]
  refine (State.appendBytes_capacity_iff s s _).2 ⟨by rw [hroom]; exact Nat.succ_pos _, ?_⟩
  rw [hroom, List.take_zero, Memory.store_nil hwf]
  simp

/-- In a buffer that is not full, a byte and then a sequence stand where the longer sequence does. -/
theorem State.appendBytes_cons {s : State} (hcur : s.cur.toNat ≠ Config.cbCap) (b : Byte) (bs : List Byte) :
    s.appendBytes (b :: bs) =
      { s with cb := s.cb.store s.cur.toNat [b], cur := s.cur + 1 }.appendBytes bs := by
  have hlt : s.cur.toNat < 65535 := by
    have := s.cur.isLt
    simp only [Config.cbCap] at hcur
    omega
  have hnext : (s.cur + 1).toNat = s.cur.toNat + 1 := s.cur_add (n := 1) (by rw [State.room_eq]; omega)
  obtain ⟨r, hr⟩ : ∃ r, s.room = r + 1 := ⟨65534 - s.cur.toNat, by rw [State.room_eq]; omega⟩
  have hroom : { s with cb := s.cb.store s.cur.toNat [b], cur := s.cur + 1 }.room = r := by
    rw [State.room_eq] at hr ⊢
    change 65535 - (s.cur + 1).toNat = r
    omega
  have hadd : ∀ n, s.cur + BitVec.ofNat 16 (n + 1) = s.cur + 1 + BitVec.ofNat 16 n := fun n => by
    rw [BitVec.ofNat_add, BitVec.add_assoc, BitVec.add_comm (BitVec.ofNat 16 n)]
    rfl
  simp only [State.appendBytes, hr, hroom, List.take_succ_cons, List.length_cons, hnext, Memory.store_cons,
    hadd, Nat.add_le_add_iff_right]

/-- Settles O33: a full buffer takes nothing, and one that is not full takes the first byte and goes on. -/
theorem appendBytesIsTheLoop : Obligations.AppendBytesIsTheLoop := by
  refine fun s hwf => ⟨State.appendBytes_nil hwf, fun b bs => ?_⟩
  rw [State.append]
  split
  next hfull => exact State.appendBytes_full hwf hfull b bs
  next hcur => exact State.appendBytes_cons hcur b bs

/-- Settles O16: the pre-check does nothing, and the walk, which is the closed form, fits the room left. -/
theorem sparseLineIsAppended : Obligations.SparseLineIsAppended := by
  intro bytes pad ref s hinv hactive hreq hmode hlen hreflen href hcount hfit
  have hopen : s.session ≠ .idle := by simp [hactive]
  have hmax : bytes.length ≤ 512 := hlen ▸ hinv.openBplDelta hopen hmode
  have hpre : { s with line := s.line.store 0 bytes }.preCheck s.bpl.toNat s.lineCnt =
      .done { s with line := s.line.store 0 bytes } :=
    (State.preCheck_done_iff _ _ _ _).2 (.inl ⟨hfit, rfl⟩)
  have hwalk : (Staging.ofDelta (deltaOf bytes ref)).walk.length ≤ { s with line := s.line.store 0 bytes }.room :=
    State.walk_fits_preCheck (hlen ▸ hinv.one_le_bpl hopen) hmax (hreflen.trans hlen.symm) (hlen ▸ hpre)
  have hline := (State.encodeScanline_sparse_done_iff _ hmode hlen (by omega)).2
    ⟨hmax, _, ref, hpre, hreflen.trans hlen.symm, href, hwalk, rfl⟩
  have hnext : (s.lineCnt + 1).toNat = s.lineCnt.toNat + 1 := by
    have hheight : s.height.toInt < 2 ^ 31 := s.height.toInt_lt
    exact BitVec.toNat_add_of_lt (show s.lineCnt.toNat + 1 < 2 ^ 32 by omega)
  rw [exec_encodeLine_accepted pad hactive hlen hreq hcount, hline]
  rw [Staging.walk_eq_lineCode] at hwalk ⊢
  exact ⟨_, rfl, rfl, rfl, s.cur_add hwalk, Memory.holds_store _ _ _,
    fun a ha => Memory.read_store_outside (.inl ha), Memory.holds_store _ _ _, Memory.holds_store _ _ _, hnext, hactive⟩

end Sys2Proof.Machine
end

section
namespace Sys2Proof.Machine

/-! ## The frames of OUT (43_chunk_framer.md R275, R284) -/

/-- Reading two item sequences is reading the second from where the first ends. -/
theorem FramePos.readAll_append (p : FramePos) (xs ys : List Item) :
    p.readAll (xs ++ ys) = (p.readAll xs).bind fun q => q.readAll ys := by
  induction xs generalizing p with
  | nil => rfl
  | cons x xs ih =>
    rw [List.cons_append, FramePos.readAll, FramePos.readAll]
    cases p.read x with
    | none => rfl
    | some q => exact ih q

theorem framesWhole_iff {items : List Item} :
    framesWhole items = true ↔ FramePos.readAll .outside items = some .outside :=
  decide_eq_true_iff

theorem framesWhole_append {xs ys : List Item} (hx : framesWhole xs = true) (hy : framesWhole ys = true) :
    framesWhole (xs ++ ys) = true := by
  rw [framesWhole_iff] at hx hy ⊢
  rw [FramePos.readAll_append, hx, Option.bind_some, hy]

/-- Bytes between the frames break none. -/
theorem framesWhole_bytes (bs : List Byte) : framesWhole (bs.map .byte) = true := by
  rw [framesWhole_iff]
  induction bs with
  | nil => rfl
  | cons b bs ih => exact ih

/-- The payload and the terminator of a frame, read where the length left off. -/
theorem FramePos.readAll_payload (payload : List Byte) :
    (FramePos.payload payload.length).readAll (payload.map .byte ++ [.frameTerminator]) = some .outside := by
  induction payload with
  | nil => rfl
  | cons b bs ih => exact ih

/-- The two length bytes of a frame, high byte first (R275). -/
theorem lengthBytes_toNat (length : BitVec 16) :
    (length.extractLsb' 8 8).toNat * 256 + (length.extractLsb' 0 8).toNat = length.toNat := by
  simp only [BitVec.extractLsb'_toNat, Nat.shiftRight_eq_div_pow]
  have := length.isLt
  omega

/-- The items of a frame with a payload are one whole frame. -/
theorem framesWhole_frameItems (offset width bpl : Word) {length : BitVec 16} {payload : List Byte}
    (hne : length ≠ 0) (hlen : payload.length = length.toNat) :
    framesWhole (frameItems offset width bpl length payload) = true := by
  have hbegin : FramePos.begin payload.length = some (.payload payload.length) :=
    if_neg (hlen ▸ BitVec.toNat_ne_iff_ne.2 hne)
  rw [framesWhole_iff, frameItems]
  simp only [FramePos.readAll, FramePos.read, FramePos.readOutside, FramePos.readByte, lengthBytes_toNat, ← hlen,
    hbegin, FramePos.readAll_payload]

section Frames

variable {s t : State}

theorem State.preCheck_keeps_frames {n : Nat} {k : Word} (hp : s.preCheck n k = .done t)
    (h : framesWhole s.out = true) : framesWhole t.out = true := by
  rcases State.preCheck_done_cases hp with ⟨rfl, -⟩ | ⟨-, hcur, payload, hlen, -, rfl⟩
  · exact h
  · exact framesWhole_append h (framesWhole_frameItems _ _ _ hcur hlen)

theorem State.finalFlush_keeps_frames (hf : s.finalFlush = .done t) (h : framesWhole s.out = true) :
    framesWhole t.out = true := by
  rcases State.finalFlush_done_cases hf with ⟨rfl, -⟩ | ⟨-, hcur, payload, hlen, -, rfl⟩
  · exact h
  · exact framesWhole_append h (framesWhole_frameItems _ _ _ hcur hlen)

theorem State.closePage_keeps_frames (h : framesWhole s.out = true) : framesWhole s.closePage.out = true := by
  rw [State.closePage]
  split
  · exact framesWhole_append h rfl
  · exact framesWhole_append h rfl

/-- A line emits its bytes in a direct mode, and in SparseDelta mode what the pre-check flushes. -/
theorem State.encodeScanline_keeps_frames {k : Word} {bytes : List Byte} (hl : bytes.length = s.bpl.toNat)
    (hx : (s.encodeScanline k bytes).outcome = .next t) (h : framesWhole s.out = true) :
    framesWhole t.out = true := by
  obtain ⟨-, ⟨-, rfl⟩ | ⟨-, -, u, ref, hu, -, -, hcode⟩⟩ := State.encodeScanline_next_cases hl hx
  · exact framesWhole_append h (framesWhole_bytes bytes)
  · have hflushed : framesWhole u.out = true := State.preCheck_keeps_frames hu h
    rcases hcode with ⟨-, rfl⟩ | ⟨-, rfl⟩
    · exact hflushed
    · exact hflushed

/-- Every operation, from any state, keeps every frame whole. -/
theorem exec_keeps_frames {i : Instr} (hx : exec i s = .next t) (h : framesWhole s.out = true) :
    framesWhole t.out = true := by
  cases i with
  | beginPage =>
    rcases exec_beginPage_cases hx with ⟨c, -, -, rfl, -⟩ | ⟨r, rfl, -⟩ | ⟨m, -, -, -, -, -, rfl⟩
    · exact h
    · exact h
    · exact framesWhole_append h rfl
  | encodeLine =>
    rcases exec_encodeLine_cases hx with ⟨c, -, -, rfl⟩ | ⟨-, -, -, -, rfl⟩ | ⟨-, -, hl, -, -, -, hx⟩
    · exact h
    · exact h
    · exact State.encodeScanline_keeps_frames hl hx h
  | endPage =>
    rcases exec_endPage_cases hx with ⟨c, -, -, rfl⟩ | ⟨-, -, u, hu, rfl⟩
    · exact h
    · rw [← s.sampleCancel_out] at h
      exact State.closePage_keeps_frames (State.finalFlush_keeps_frames hu h)
  | rleEncode =>
    rcases exec_rleEncode_cases hx with ⟨rfl, -⟩ | ⟨-, rfl⟩
    · exact h
    · exact framesWhole_append h (framesWhole_bytes _)
  | cancel =>
    rw [exec_cancel_eq] at hx
    cases hx
    split
    · exact h
    · exact h
  | read index => cases hx; exact h
  | reset => cases hx; exact h

end Frames

/-- Settles O53: receiving words, a rejected head word and waiting emit nothing, and every operation keeps the frames. -/
theorem framesStayWhole : Obligations.FramesStayWhole := by
  refine ⟨rfl, fun s t h hx => ?_⟩
  obtain ⟨p, inp, pos, -, ⟨i, hi⟩ | hi | hi⟩ := step_cases s <;> rw [hi] at hx
  · exact exec_keeps_frames hx h
  · cases hx; exact h
  · cases hx; exact h

end Sys2Proof.Machine
end

section
namespace Sys2Proof.Machine

/-! ## The chunk buffer holds whole lines (42_sparse_delta.md R241, 43_chunk_framer.md R282) -/

/-- Two byte sequences one after the other. -/
theorem Holds.append {m : Memory} {a : Nat} {bs cs : List Byte} (hb : Holds m a bs) (hc : Holds m (a + bs.length) cs) :
    Holds m a (bs ++ cs) := by
  intro j hj
  rw [List.length_append] at hj
  by_cases hlt : j < bs.length
  · rw [hb j hlt, List.getElem?_append_left hlt]
  · rw [List.getElem?_append_right (not_lt.1 hlt), ← hc (j - bs.length) (by omega)]
    congr 1
    omega

/-- A store above a byte sequence leaves it there. -/
theorem Holds.store_above {m : Memory} {a x : Nat} {bs cs : List Byte} (hb : Holds m a bs) (hx : a + bs.length ≤ x) :
    Holds (m.store x cs) a bs := fun j hj => by
  rw [Memory.read_store_outside (.inl (by omega)), hb j hj]

/-- LINE_CNT does not wrap while it is below HEIGHT (R158). -/
theorem State.lineCnt_succ {s : State} (h : (s.lineCnt.toNat : Int) < s.height.toInt) :
    (s.lineCnt + 1).toNat = s.lineCnt.toNat + 1 := by
  have hheight : s.height.toInt < 2 ^ 31 := s.height.toInt_lt
  exact BitVec.toNat_add_of_lt (show s.lineCnt.toNat + 1 < 2 ^ 32 by omega)

section Buffer

variable {s t : State}

theorem State.buffersWholeLines_of_idle (h : s.session = .idle) : s.BuffersWholeLines := fun hs => absurd h hs

/-- An empty buffer holds the codes of no lines. -/
theorem State.buffersWholeLines_of_empty (hcur : s.cur = 0) (hmark : s.mark = s.lineCnt) : s.BuffersWholeLines :=
  fun _ _ => ⟨[], by simp [hmark], by simp, by simp [hcur], fun _ hj => absurd hj (Nat.not_lt_zero _)⟩

theorem State.BuffersWholeLines.toCanceling (h : s.BuffersWholeLines) (hs : s.session ≠ .idle) :
    { s with session := .canceling }.BuffersWholeLines := fun _ => h hs

/-- The pre-check of the next line keeps the buffer, or empties it with MARK at that line. -/
theorem State.preCheck_keeps_wholeLines {n : Nat} (hp : s.preCheck n s.lineCnt = .done t)
    (h : s.BuffersWholeLines) : t.BuffersWholeLines := by
  rcases State.preCheck_done_cases hp with ⟨rfl, -⟩ | ⟨-, -, payload, -, -, rfl⟩
  · exact h
  · exact State.buffersWholeLines_of_empty rfl rfl

/-- The code of the next line is appended, and the line counted. -/
theorem State.BuffersWholeLines.appendLine (h : s.BuffersWholeLines) {delta : List Byte}
    (hdelta : delta.length = s.bpl.toNat) (hfit : (lineCode delta).length ≤ s.room)
    (hcount : (s.lineCnt.toNat : Int) < s.height.toInt) :
    { s with
      cb := s.cb.store s.cur.toNat (lineCode delta), cur := s.cur + BitVec.ofNat 16 (lineCode delta).length,
      lineCnt := s.lineCnt + 1 }.BuffersWholeLines := by
  intro hs hm
  obtain ⟨deltas, hlines, hbpl, hcur, hheld⟩ := h hs hm
  have hcodes : (deltas ++ [delta]).flatMap lineCode = deltas.flatMap lineCode ++ lineCode delta := by
    rw [List.flatMap_append, List.flatMap_singleton]
  refine ⟨deltas ++ [delta], ?_, fun d hd => ?_, ?_, ?_⟩
  · rw [List.length_append, List.length_singleton, State.lineCnt_succ hcount, ← hlines, Nat.add_assoc]
  · rcases List.mem_append.1 hd with hd | hd
    · exact hbpl d hd
    · rw [List.mem_singleton.1 hd, hdelta]
  · rw [hcodes, List.length_append, ← hcur]
    exact s.cur_add hfit
  · rw [hcodes]
    refine (hheld.store_above (by omega)).append ?_
    rw [Nat.zero_add, ← hcur]
    exact Memory.holds_store _ _ _

/-- A line that is not canceled: the pre-check runs between lines, and the walk, which fits, is the line's code. -/
theorem State.encodeScanline_keeps_wholeLines {bytes : List Byte} (hs : s.session ≠ .idle)
    (hl : bytes.length = s.bpl.toNat) (hcount : (s.lineCnt.toNat : Int) < s.height.toInt)
    (hx : (s.encodeScanline s.lineCnt bytes).outcome = .next t) (hinv : s.Inv) (h : s.BuffersWholeLines) :
    t.BuffersWholeLines := by
  obtain ⟨-, ⟨hdirect, rfl⟩ | ⟨-, hmax, u, ref, hu, hr, -, hcode⟩⟩ := State.encodeScanline_next_cases hl hx
  · exact fun _ hm => absurd hm hdirect
  · have hbuffer : u.BuffersWholeLines := State.preCheck_keeps_wholeLines hu h
    obtain ⟨-, ⟨-, -, hheight, hbpl, -⟩, hcnt, -⟩ := State.preCheck_done_frame hu
    have hwalk := State.walk_fits_preCheck (hl ▸ hinv.one_le_bpl hs) hmax hr (hl ▸ hu)
    rcases hcode with ⟨-, rfl⟩ | ⟨hfull, -⟩
    · rw [Staging.walk_eq_lineCode] at hwalk ⊢
      have hdelta : (deltaOf bytes ref).length = u.bpl.toNat := by
        rw [length_deltaOf hr.symm, hr, hl, hbpl]
      rw [← hcnt, ← hheight] at hcount
      exact hbuffer.appendLine hdelta hwalk hcount
    · exact absurd hfull (Nat.not_lt.2 hwalk)

/-- Every operation keeps the buffer made of whole lines. -/
theorem exec_keeps_wholeLines {i : Instr} (hx : exec i s = .next t) (hinv : s.Inv) (h : s.BuffersWholeLines) :
    t.BuffersWholeLines := by
  cases i with
  | beginPage =>
    rcases exec_beginPage_cases hx with ⟨c, -, -, rfl, -⟩ | ⟨r, rfl, -⟩ | ⟨m, -, -, -, -, -, rfl⟩
    · exact h
    · exact h
    · exact State.buffersWholeLines_of_empty rfl rfl
  | encodeLine =>
    rcases exec_encodeLine_cases hx with ⟨c, -, -, rfl⟩ | ⟨-, hs, -, -, rfl⟩ | ⟨-, hs, hl, -, rfl, hcount, hx⟩
    · exact h
    · exact h.toCanceling hs
    · exact State.encodeScanline_keeps_wholeLines (by simp [hs]) hl hcount hx hinv h
  | endPage =>
    rcases exec_endPage_cases hx with ⟨c, -, -, rfl⟩ | ⟨-, -, u, -, rfl⟩
    · exact h
    · exact State.buffersWholeLines_of_idle u.closePage_session
  | rleEncode =>
    rcases exec_rleEncode_cases hx with ⟨rfl, -⟩ | ⟨-, rfl⟩
    · exact h
    · exact h
  | cancel =>
    rw [exec_cancel_eq] at hx
    cases hx
    split
    · exact h
    · exact h
  | read index => cases hx; exact h
  | reset => cases hx; exact State.buffersWholeLines_of_idle rfl

end Buffer

/-- Settles O54: receiving words, a rejected head word and waiting leave the buffer, and every operation keeps it. -/
theorem bufferKeepsWholeLines : Obligations.BufferKeepsWholeLines := by
  intro s t hinv h hx
  obtain ⟨p, inp, pos, hp, hcases⟩ := step_cases s
  have hrec := hinv.receive (hp hinv.pendingPartial) inp pos
  rcases hcases with ⟨i, hi⟩ | hi | hi <;> rw [hi] at hx
  · exact exec_keeps_wholeLines hx hrec h
  · cases hx; exact h
  · cases hx; exact h

end Sys2Proof.Machine
end

section
namespace Sys2Proof.Machine

/-! ## The pre-check, and a line that flushes first (43_chunk_framer.md R272, R276, R278, R283) -/

/-- The worst case of a line fits an empty buffer (R273). -/
theorem State.worstCase_le_room_of_empty {s : State} {n : Nat} (hn : n ≤ 512) (hcur : s.cur = 0) :
    worstCase n ≤ s.room := by
  have hzero : s.cur.toNat = 0 := by rw [hcur]; rfl
  rw [State.room_eq, hzero]
  simp only [worstCase, ceilDiv]
  omega

/-- Settles O34: `preCheck_done_room`, with the room spelled out. -/
theorem preCheckLeavesRoom : Obligations.PreCheckLeavesRoom :=
  fun _ _ _ _ hn hp => State.preCheck_done_room hn hp

/-- Settles O35: the flush is guarded by CUR, and the worst case fits an empty buffer. -/
theorem emptyBufferIsNotFlushed : Obligations.EmptyBufferIsNotFlushed := fun s k hcur =>
  ⟨(State.flush_done_iff s s k).2 (.inl ⟨hcur, rfl⟩), fun n hn =>
    (State.preCheck_done_iff s s n k).2 (.inl ⟨State.worstCase_le_room_of_empty hn hcur, rfl⟩)⟩

/-- A pre-check whose worst case exceeds the room left emits the buffer as one frame and empties it (R272, R278). -/
theorem State.preCheck_flushes {s : State} {n : Nat} {payload : List Byte} (k : Word) (hn : n ≤ 512)
    (hfull : s.room < worstCase n) (hlen : payload.length = s.cur.toNat) (hheld : Holds s.cb 0 payload) :
    s.preCheck n k =
      .done { s.emit (frameItems s.mark s.width s.bpl s.cur payload) with cur := 0, mark := k } := by
  have hcur : s.cur ≠ 0 := fun h0 => not_le.2 hfull (State.worstCase_le_room_of_empty hn h0)
  exact (State.preCheck_done_iff _ _ _ _).2
    (.inr ⟨hfull, (State.flush_done_iff _ _ _).2 (.inr ⟨hcur, payload, hlen, hheld, rfl⟩)⟩)

/-- Settles O17: the pre-check flushes, and the walk, which is the closed form, fits the emptied buffer. -/
theorem sparseLineFlushesFirst : Obligations.SparseLineFlushesFirst := by
  intro bytes pad ref payload s hinv hactive hreq hmode hlen hreflen href hcount hfull hpaylen hheld
  have hopen : s.session ≠ .idle := by simp [hactive]
  have hbpl : s.bpl.toNat ≤ 512 := hinv.openBplDelta hopen hmode
  have hmax : bytes.length ≤ 512 := hlen ▸ hbpl
  have hpre := State.preCheck_flushes (s := { s with line := s.line.store 0 bytes }) s.lineCnt hbpl hfull hpaylen hheld
  have hwalk := State.walk_fits_preCheck (hlen ▸ hinv.one_le_bpl hopen) hmax (hreflen.trans hlen.symm) (hlen ▸ hpre)
  have hline := (State.encodeScanline_sparse_done_iff _ hmode hlen (by omega)).2
    ⟨hmax, _, ref, hpre, hreflen.trans hlen.symm, href, hwalk, rfl⟩
  rw [exec_encodeLine_accepted pad hactive hlen hreq hcount, hline]
  rw [Staging.walk_eq_lineCode] at hwalk ⊢
  exact ⟨_, rfl, congrArg (s.out ++ ·) (frameItems_eq _ _ _ hpaylen), rfl,
    (State.cur_add _ hwalk).trans (Nat.zero_add _), Memory.holds_store _ _ _, Memory.holds_store _ _ _,
    Memory.holds_store _ _ _, State.lineCnt_succ hcount, hactive⟩

end Sys2Proof.Machine
end

section
namespace Sys2Proof.Machine

/-! ## What an operation does, by its fault conditions (60_exceptions.md R301, R303, R305) -/

theorem modeOf_eq_none {field : BitVec 2} : modeOf field = none ↔ field = 3 := by
  revert field
  decide

section Conditions

variable {s : State} {k : Word} {bytes pad : List Byte}

theorem indexMismatch_eq (r : BitVec 8) :
    indexMismatch (.encodeLine r k bytes pad) s = (!s.canceling && decide (unsignedOf k ≠ s.lineCnt.toNat)) := by
  simp [indexMismatch, State.canceling, unsignedOf, BitVec.toNat_inj]

theorem lineOverrun_eq (r : BitVec 8) :
    lineOverrun (.encodeLine r k bytes pad) s = (!s.canceling && s.linesDone) := rfl

theorem faultOf_beginPage (r : BitVec 22) (mode : BitVec 2) (width height cfg : Word) :
    faultOf (.beginPage r mode width height cfg) s =
      if r ≠ 0 then some .reservedBits
      else if modeOf mode = none then some .illegalMode
      else if s.session ≠ .idle then some .stateViolation
      else none := by
  simp [faultOf_eq, reservedIsSet, modeIsIllegal, modeOf_eq_none, stateViolated, lengthMismatch, indexMismatch,
    lineOverrun]

theorem faultOf_encodeLine (r : BitVec 8) :
    faultOf (.encodeLine r k bytes pad) s =
      if r ≠ 0 then some .reservedBits
      else if s.session = .idle then some .stateViolation
      else if bytes.length ≠ s.bpl.toNat then some .lineLengthMismatch
      else if s.canceling then none
      else if unsignedOf k ≠ s.lineCnt.toNat then some .lineIndexMismatch
      else if s.linesDone then some .lineOverrun
      else none := by
  rw [faultOf_eq, indexMismatch_eq, lineOverrun_eq]
  cases hc : s.canceling <;> simp [reservedIsSet, modeIsIllegal, stateViolated, lengthMismatch]

theorem faultOf_endPage (r : BitVec 24) :
    faultOf (.endPage r) s =
      if r ≠ 0 then some .reservedBits else if s.session = .idle then some .stateViolation else none := by
  simp [faultOf_eq, reservedIsSet, modeIsIllegal, stateViolated, lengthMismatch, indexMismatch, lineOverrun]

theorem faultOf_rleEncode (r : BitVec 16) (c : Byte) (n : Word) :
    faultOf (.rleEncode r c n) s = if r ≠ 0 then some .reservedBits else none := by
  simp [faultOf_eq, reservedIsSet, modeIsIllegal, stateViolated, lengthMismatch, indexMismatch, lineOverrun]

end Conditions

/-! ## An operation either faults or runs -/

section FaultOrRun

variable {i : Instr} {s : State}

/-- BEGIN_PAGE where no fault condition holds: in Idle, with no reserved bit set and a legal MODE. -/
theorem faultOf_beginPage_eq_none {r : BitVec 22} {mode : BitVec 2} {width height cfg : Word}
    (h : faultOf (.beginPage r mode width height cfg) s = none) :
    r = 0 ∧ (∃ m : GraphicsMode, mode = m.code) ∧ s.session = .idle := by
  rw [faultOf_beginPage] at h
  split_ifs at h with hr hm hs
  obtain ⟨m, hm⟩ := Option.ne_none_iff_exists'.1 hm
  exact ⟨not_not.1 hr, ⟨m, modeOf_eq_some.1 hm⟩, not_not.1 hs⟩

/-- BEGIN_PAGE where a fault condition holds. -/
theorem exec_beginPage_of_faultOf {r : BitVec 22} {mode : BitVec 2} {width height cfg : Word} {c : FaultCode}
    (h : faultOf (.beginPage r mode width height cfg) s = some c) :
    exec (.beginPage r mode width height cfg) s = .next (s.recordFault c) := by
  rw [faultOf_beginPage] at h
  rw [exec, execBeginPage]
  split_ifs at h with hr hm hs <;> cases h
  · exact if_pos hr
  · rw [if_neg hr, hm]
  · obtain ⟨m, hm⟩ := Option.ne_none_iff_exists'.1 hm
    rw [if_neg hr, hm]
    exact if_pos hs

/-- ENCODE_LINE: its fault, or else the canceling no-op or the line. -/
theorem exec_encodeLine_eq (r : BitVec 8) (k : Word) (bytes pad : List Byte) (s : State) :
    exec (.encodeLine r k bytes pad) s =
      (faultOf (.encodeLine r k bytes pad) s).elim
        (if s.canceling then .next { s with session := .canceling } else (s.encodeScanline k bytes).outcome)
        fun c => .next (s.recordFault c) := by
  rw [faultOf_encodeLine, exec, execEncodeLine]
  split_ifs <;> rfl

/-- END_PAGE: its fault, or else the flush and the close of the page. -/
theorem exec_endPage_eq (r : BitVec 24) (s : State) :
    exec (.endPage r) s =
      (faultOf (.endPage r) s).elim
        (s.sampleCancel.finalFlush.andThen fun u => .done u.closePage).outcome
        fun c => .next (s.recordFault c) := by
  rw [faultOf_endPage, exec, execEndPage]
  split_ifs <;> rfl

/-- RLE_ENCODE: its fault, or else the run. -/
theorem exec_rleEncode_eq (r : BitVec 16) (c : Byte) (n : Word) (s : State) :
    exec (.rleEncode r c n) s =
      (faultOf (.rleEncode r c n) s).elim
        (.next (s.emitBytes (runBytes c n.toNat)))
        fun c => .next (s.recordFault c) := by
  rw [faultOf_rleEncode, exec, execRleEncode]
  split_ifs <;> rfl

/-- An operation for which a fault condition holds records the first one, and does nothing else (R303, R305). -/
theorem exec_of_faultOf_eq_some {c : FaultCode} (h : faultOf i s = some c) : exec i s = .next (s.recordFault c) := by
  cases i with
  | beginPage => exact exec_beginPage_of_faultOf h
  | encodeLine => rw [exec_encodeLine_eq, h]; rfl
  | endPage => rw [exec_endPage_eq, h]; rfl
  | rleEncode => rw [exec_rleEncode_eq, h]; rfl
  | cancel => cases h
  | read index => cases h
  | reset => cases h

/-- An operation for which no fault condition holds is RESET, a line that runs, the close of a page, or answers at once
and keeps the fault record. -/
theorem exec_of_faultOf_eq_none (h : faultOf i s = none) :
    i = .reset ∨
    (∃ k bytes, s.session ≠ .idle ∧ bytes.length = s.bpl.toNat ∧
      exec i s = (s.encodeScanline k bytes).outcome) ∨
    (s.session ≠ .idle ∧ exec i s = (s.sampleCancel.finalFlush.andThen fun u => .done u.closePage).outcome) ∨
    ∃ t, exec i s = .next t ∧ SameFault s t := by
  cases i with
  | beginPage r mode width height cfg =>
    obtain ⟨rfl, ⟨m, rfl⟩, hidle⟩ := faultOf_beginPage_eq_none h
    refine .inr (.inr (.inr ⟨_, exec_beginPage_idle hidle m width height cfg, ?_⟩))
    split_ifs <;> exact ⟨rfl, rfl⟩
  | encodeLine r k bytes pad =>
    rw [exec_encodeLine_eq, h]
    rw [faultOf_encodeLine] at h
    split_ifs at h with hr hs hl hc
    · exact .inr (.inr (.inr ⟨_, if_pos hc, rfl, rfl⟩))
    · exact .inr (.inl ⟨k, bytes, hs, not_not.1 hl, if_neg hc⟩)
  | endPage r =>
    rw [exec_endPage_eq, h]
    rw [faultOf_endPage] at h
    split_ifs at h with hr hs
    exact .inr (.inr (.inl ⟨hs, rfl⟩))
  | rleEncode r c n =>
    rw [exec_rleEncode_eq, h]
    exact .inr (.inr (.inr ⟨_, rfl, rfl, rfl⟩))
  | cancel =>
    refine .inr (.inr (.inr ⟨_, exec_cancel_eq s, ?_⟩))
    split_ifs <;> exact ⟨rfl, rfl⟩
  | read index => exact .inr (.inr (.inr ⟨_, rfl, rfl, rfl⟩))
  | reset => exact .inl rfl

end FaultOrRun

/-- Settles O8: `exec_of_faultOf_eq_some`, with the record spelled out. -/
theorem firstFaultConditionIsReported : Obligations.FirstFaultConditionIsReported :=
  fun _ _ _ h => exec_of_faultOf_eq_some h

/-! ## The fault record (R305, R308; 43_chunk_framer.md R283) -/

section Record

variable {s t : State}

/-- A line that is not canceled keeps the fault record, but for CAPACITY. -/
theorem State.encodeScanline_record {k : Word} {bytes : List Byte} (hl : bytes.length = s.bpl.toNat)
    (h : (s.encodeScanline k bytes).outcome = .next t) :
    SameFault s t ∨ SameFault (s.recordFault .capacity) t := by
  obtain ⟨-, ⟨-, rfl⟩ | ⟨-, -, u, ref, hu, -, -, hend⟩⟩ := State.encodeScanline_next_cases hl h
  · exact .inl ⟨rfl, rfl⟩
  · obtain ⟨-, -, -, -, -, ⟨hfault, hcode⟩, -⟩ := State.preCheck_done_frame hu
    rcases hend with ⟨-, rfl⟩ | ⟨-, rfl⟩
    · exact .inl ⟨hfault, hcode⟩
    · exact .inr ⟨rfl, by simp only [State.recordFault_faultCode, hcode]⟩

theorem State.finalFlush_ne_capacity : s.finalFlush ≠ .capacity t := by
  rw [State.finalFlush]
  split
  · simp
  · simp
  · exact State.flush_ne_capacity s t 0

/-- END_PAGE's flush and the close of the page keep the fault record. -/
theorem State.closePage_record
    (h : (s.sampleCancel.finalFlush.andThen fun u => .done u.closePage).outcome = .next t) : SameFault s t := by
  rcases Progress.outcome_eq_next.1 h with h | ⟨v, h, -⟩
  · obtain ⟨u, hu, h⟩ := Progress.andThen_eq_done.1 h
    cases h
    rcases State.finalFlush_done_cases hu with ⟨rfl, -⟩ | ⟨-, -, payload, -, -, rfl⟩ <;> simp [SameFault, State.emit]
  · rcases Progress.andThen_eq_capacity.1 h with h | ⟨u, -, h⟩
    · exact absurd h State.finalFlush_ne_capacity
    · cases h

/-- Everything an operation but RESET can do to the fault record: keep it, or record its first fault condition or
CAPACITY. -/
theorem exec_record_cases {i : Instr} (h : exec i s = .next t) (hreset : i ≠ .reset) :
    SameFault s t ∨ ∃ c, (faultOf i s = some c ∨ c = .capacity) ∧ SameFault (s.recordFault c) t := by
  cases hf : faultOf i s with
  | some c =>
    rw [exec_of_faultOf_eq_some hf] at h
    cases h
    exact .inr ⟨c, .inl rfl, rfl, rfl⟩
  | none =>
    rcases exec_of_faultOf_eq_none hf with hr | ⟨k, bytes, -, hl, hx⟩ | ⟨-, hx⟩ | ⟨u, hx, hu⟩
    · exact absurd hr hreset
    · exact (State.encodeScanline_record hl (hx ▸ h)).imp_right fun hcap => ⟨_, .inr rfl, hcap⟩
    · exact .inl (State.closePage_record (hx ▸ h))
    · rw [hx] at h
      cases h
      exact .inl hu

/-- A record that is set stays as it is when a fault is recorded again (R305). -/
theorem State.sameFault_recordFault (hset : s.fault = true) (hcode : s.faultCode ≠ .none) (c : FaultCode) :
    SameFault s (s.recordFault c) :=
  ⟨hset.symm, by rw [State.recordFault_faultCode, if_neg hcode]⟩

/-- In the states of a run CAPACITY is not recorded, so a record that took CAPACITY was set before (R283). -/
theorem State.Inv.sameFault_of_capacity (h : s.Inv) (ht : t.Inv) (hcap : SameFault (s.recordFault .capacity) t) :
    SameFault s t := by
  obtain ⟨hfault, hcode⟩ := hcap
  have hset : s.faultCode ≠ .none := fun h0 => ht.noCapacity (by rw [hcode, State.recordFault_faultCode, if_pos h0])
  have hon : s.fault = true := by simpa using mt h.faultRecord.1 hset
  obtain ⟨hfault', hcode'⟩ := State.sameFault_recordFault hon hset .capacity
  exact ⟨hfault.trans hfault', hcode.trans hcode'⟩

end Record

/-- Settles O9: the operation keeps the record or records CAPACITY, which no state of a run has. -/
theorem noConditionNoFaultRecord : Obligations.NoConditionNoFaultRecord := by
  intro i s t hinv hreset hnone h
  rcases exec_record_cases h hreset with hsame | ⟨c, hc | rfl, hrec⟩
  · exact hsame
  · rw [hnone] at hc
    cases hc
  · exact hinv.sameFault_of_capacity (exec_keeps_inv hinv h) hrec

/-- Settles O10: whatever fault is recorded, a record that is set stays. -/
theorem faultRecordIsSticky : Obligations.FaultRecordIsSticky := by
  refine ⟨fun i s t hreset hrecord hset h => ?_, fun s t h => ?_⟩
  · have hcode : s.faultCode ≠ .none := fun h0 => by simp [hrecord.2 h0] at hset
    rcases exec_record_cases h hreset with ⟨hf, hc⟩ | ⟨c, -, hf, hc⟩
    · exact ⟨hf.trans hset, hc⟩
    · obtain ⟨-, hsame⟩ := State.sameFault_recordFault hset hcode c
      exact ⟨hf, hc.trans hsame⟩
  · cases h
    exact ⟨rfl, rfl⟩

end Sys2Proof.Machine
end

section
namespace Sys2Proof.Machine

/-! ## In the states of a run every operation answers (10_state.md R56, 20_memory.md R84, 60_exceptions.md R319) -/

section Answers

variable {s : State}

/-- A flush reads CB below CUR, which has been written. -/
theorem State.Inv.flush_answers (h : s.Inv) (k : Word) : ∃ t, s.flush k = .done t := by
  by_cases hcur : s.cur = 0
  · exact ⟨_, (State.flush_done_iff _ _ _).2 (.inl ⟨hcur, rfl⟩)⟩
  · obtain ⟨payload, hlen, hheld⟩ := Memory.exists_holds h.cbWritten
    exact ⟨_, (State.flush_done_iff _ _ _).2 (.inr ⟨hcur, payload, hlen, hheld, rfl⟩)⟩

theorem State.Inv.preCheck_answers (h : s.Inv) (n : Nat) (k : Word) : ∃ t, s.preCheck n k = .done t := by
  rw [State.preCheck]
  split
  · exact h.flush_answers k
  · exact ⟨s, rfl⟩

theorem State.Inv.finalFlush_answers (h : s.Inv) : ∃ t, s.finalFlush = .done t := by
  rw [State.finalFlush]
  split
  · exact ⟨s, rfl⟩
  · exact ⟨s, rfl⟩
  · exact h.flush_answers 0

/-- A line of an open page fits LINE; in SparseDelta mode it fits REF, which has been written, and its code fits the
chunk buffer. -/
theorem State.Inv.encodeScanline_answers (h : s.Inv) (hopen : s.session ≠ .idle) (k : Word) {bytes : List Byte}
    (hlen : bytes.length = s.bpl.toNat) : ∃ t, s.encodeScanline k bytes = .done t := by
  have hfit : bytes.length ≤ 65535 := hlen ▸ h.openBplDirect hopen
  by_cases hmode : s.mode = .sparseDelta
  · have hdelta : bytes.length ≤ 512 := hlen ▸ h.openBplDelta hopen hmode
    obtain ⟨ref, hreflen, href⟩ := Memory.exists_holds (n := bytes.length) fun a ha =>
      h.refWritten hopen a (ha.trans_le hdelta)
    obtain ⟨u, hu⟩ := (h.storeLine hfit).preCheck_answers s.bpl.toNat k
    have hwalk := State.walk_fits_preCheck (hlen ▸ h.one_le_bpl hopen) hdelta hreflen (hlen ▸ hu)
    exact ⟨_, (State.encodeScanline_sparse_done_iff _ hmode hlen hfit).2 ⟨hdelta, u, ref, hu, hreflen, href, hwalk, rfl⟩⟩
  · rw [State.encodeScanline_direct hmode hlen, if_neg (show ¬ MemId.line.size < _ from not_lt.2 hfit)]
    exact ⟨_, rfl⟩

/-- Every operation answers: a faulting one records the fault, and the others read and store inside what a run has
written and holds. -/
theorem State.Inv.exec_answers (h : s.Inv) (i : Instr) : ∃ t, exec i s = .next t := by
  cases hf : faultOf i s with
  | some c => exact ⟨_, exec_of_faultOf_eq_some hf⟩
  | none =>
    rcases exec_of_faultOf_eq_none hf with rfl | ⟨k, bytes, hopen, hlen, hx⟩ | ⟨hopen, hx⟩ | ⟨t, hx, -⟩
    · exact ⟨_, rfl⟩
    · obtain ⟨t, ht⟩ := h.encodeScanline_answers hopen k hlen
      exact ⟨t, by rw [hx, ht]; rfl⟩
    · obtain ⟨u, hu⟩ := (h.sampleCancel hopen).finalFlush_answers
      exact ⟨u.closePage, by rw [hx, hu]; rfl⟩
    · exact ⟨t, hx⟩

end Answers

/-- Settles O52: a step runs an operation in a state of a run, rejects a head word, or waits. -/
theorem stepAlwaysAnswers : Obligations.StepAlwaysAnswers := by
  intro s h
  obtain ⟨p, inp, pos, hp, ⟨i, hi⟩ | hi | hi⟩ := step_cases s
  · rw [hi]
    exact (h.receive (hp h.pendingPartial) inp pos).exec_answers i
  · exact ⟨_, hi⟩
  · exact ⟨_, hi⟩

end Sys2Proof.Machine
end

section
namespace Sys2Proof.Machine

/-! ## The RESET event (70_reset_and_hazards.md R340) -/

/-- The registers of the STATUS word are as after power-on, so its value is the power-on one (R47). -/
@[simp] theorem State.hardReset_statusWord (s : State) : s.hardReset.statusWord = State.reset.statusWord := rfl

/-- Settles O2: RESET runs `hardReset`, whose registers are those of the power-on state; its STATUS word is O3's. -/
theorem resetEventClearsTheBlock : Obligations.ResetEventClearsTheBlock := by
  intro s
  have hstatus : s.hardReset.statusWord = 0 := s.hardReset_statusWord.trans statusWordFields.2
  have hrun : exec .reset s = .next s.hardReset := rfl
  exact ⟨s.hardReset, hrun, rfl, rfl, rfl, rfl, rfl, rfl, rfl, rfl, rfl, rfl, rfl, rfl, rfl, rfl, rfl, hstatus,
    rfl, rfl, rfl, rfl⟩

end Sys2Proof.Machine
end
